-- ==== Sys2Proof/Word.lean ====
section
/-! DEFINITION. The word types of the block: the byte, the two field widths, and a floating-point value.

The block computes on bytes (frame bytes, the checksum accumulator), on unsigned 24-bit and 16-bit fields
(rule R21, R26), and on IEEE 754 binary floating-point values (rule R160). No value is ever sign-extended
(00_scope.md section 5). -/
namespace Sys2Proof

/-- One byte: a pushed byte, a byte of the frame buffer, the checksum accumulator. -/
abbrev Byte := BitVec 8

/-- An unsigned 24-bit field or register (rule R21). -/
abbrev Word24 := BitVec 24

/-- The unsigned 16-bit `pf` field or register (rule R26). -/
abbrev Word16 := BitVec 16

/-- A floating-point value (rule R160): a finite number, an infinity, or the one "not a number".

`fin neg sig exp` is `sig * 2 ^ exp` in units of the format's smallest positive number, negated when
`neg`: so `exp = 0` with a small `sig` is a subnormal, and `sig = 0` is a zero. The canonical pairs are
those of `Fp.canonical`. There is a single `nan`: rule R163 and U1 leave its sign and payload
unspecified and have a model represent it by one value. -/
inductive Fp where
  | nan
  | inf (neg : Bool)
  | fin (neg : Bool) (sig exp : Nat)
  deriving DecidableEq, Repr

end Sys2Proof
end

