-- ==== Sys2Proof/Config.lean ====
section
/-! DEFINITION. What an implementation fixes: the block's parameters (00_scope.md section 4), and the
constants of the frame format.

The parameters are configuration, not state (rule R12): no operation writes them. One `Config` stands for
one built block (rule R19), so that a statement over every machine state is a statement over every admissible
choice of the parameters that the spec leaves OPEN. -/
namespace Sys2Proof

/-- The open parameter `FPFMT` (rule R160, decision D10). -/
inductive FpFmt where
  | binary32
  | binary64
  deriving DecidableEq, Repr

/-- A resistor parameter as the exact number `num / den`, in ohms: 0.001 is `⟨1, 1000⟩`.
Non-positive values and `den = 0` can be written down; `Config.legal` rejects them (rule R8, U4). -/
structure Ohms where
  num : Int
  den : Nat
  deriving DecidableEq, Repr

/-- The parameters of one block (00_scope.md section 4; the widths `REG_W`, `PF_W`, `IDX_W`, `ACC_W` are fixed
by the types of `Machine.State`). -/
structure Config where
  /-- `FPFMT`, open. -/
  fmt : FpFmt
  /-- `PFDATA_W`, open, default 32. -/
  pfdataW : Nat
  /-- `VOLTAGE_R1`, open, default 1,880,000. -/
  voltageR1 : Ohms
  /-- `VOLTAGE_R2`, open, default 1,000. -/
  voltageR2 : Ohms
  /-- `CURRENT_SHUNT_R`, open, default 0.001. -/
  currentShuntR : Ohms
  deriving DecidableEq, Repr

/-- The default parameters of rule R7 and `PFDATA_W` = 32, in the format given. -/
def Config.withFormat (fmt : FpFmt) : Config :=
  { fmt := fmt, pfdataW := 32, voltageR1 := ⟨1880000, 1⟩, voltageR2 := ⟨1000, 1⟩, currentShuntR := ⟨1, 1000⟩ }

/-- The block that `Machine.State.reset` is built as. The spec names no default for `FPFMT`:
`binary64` is a DESIGN CHOICE (assumption 1, unsafe), and no statement rests on it. -/
def Config.standard : Config := Config.withFormat .binary64

/-- `FRAME_LEN` (rule R6). -/
def frameLen : Nat := 24

/-- `STATE_MARKER`, the value of frame byte 0 (rule R81). -/
def stateMarker : Byte := 0x55

/-- `CHECK_MARKER`, the value of frame byte 1 (rule R81). -/
def checkMarker : Byte := 0x5A

end Sys2Proof
end

