-- ==== Sys2Proof/Machine/Params.lean ====
section
/-! DEFINITION. What the block's parameters mean: the two floating-point formats in numbers (rule R160), and which
parameters are legal (rule R8). -/
namespace Sys2Proof

/-- The precision: significand bits, the hidden one included (rule R160). -/
def FpFmt.precision : FpFmt → Nat
  | .binary32 => 24
  | .binary64 => 53

/-- The smallest positive number of the format is `2 ^ -(ulpScale)`: 2^-149 and 2^-1074. -/
def FpFmt.ulpScale : FpFmt → Nat
  | .binary32 => 149
  | .binary64 => 1074

/-- The exponent of the largest finite numbers, in units of the smallest positive number:
2^104 = 2^(253-149) and 2^971 = 2^(2045-1074). -/
def FpFmt.maxExp : FpFmt → Nat
  | .binary32 => 253
  | .binary64 => 2045

/-- The width of the interchange encoding (rule R160). -/
def FpFmt.width : FpFmt → Nat
  | .binary32 => 32
  | .binary64 => 64

/-- A positive finite number of ohms. -/
def Ohms.positive (r : Ohms) : Bool := decide (0 < r.num) && decide (0 < r.den)

/-- The parameters a block can be built with: three positive finite resistors (rule R8) and a counter of at least
one bit (92_eei_decisions.md, "Parameters left open"). -/
def Config.legal (c : Config) : Bool :=
  c.voltageR1.positive && c.voltageR2.positive && c.currentShuntR.positive && decide (1 ≤ c.pfdataW)

end Sys2Proof
end

