-- ==== Sys2Proof/Syntax.lean ====
section
/-! DEFINITION. The operation set, whole: one constructor of `Instr` per row of spec/opcode_table.json
(rule R90), and what the host presents at the ports (rules R91, R92, R97). -/
namespace Sys2Proof

/-- The output ports that a read operation samples (rule R92). `frame_complete` has no read operation of its
own in the table: it is the state element `fc`. -/
inductive ReadPort where
  | checksumValid
  | vEff
  | iEff
  | pActive
  | pApparent
  | powerFactor
  | energyKwh
  deriving DecidableEq, Repr

/-- The eight micro-operations of the update (rule R140), each named by the register it writes. -/
inductive UpdLane where
  | vparam
  | v
  | iparam
  | i
  | pparam
  | p
  | pf
  | pfdata
  deriving DecidableEq, Repr

/-- The arguments of `FRAME(vparam, v, iparam, i, pparam, p, flags, pf)` (rule R97). -/
structure FrameArgs where
  vparam : Word24
  v : Word24
  iparam : Word24
  i : Word24
  pparam : Word24
  p : Word24
  flags : Byte
  pf : Word16
  deriving DecidableEq, Repr

/-- The operations, one constructor per row of spec/opcode_table.json, in the table's order. -/
inductive Instr where
  /-- `CONSTRUCT` (rule R190): the hard reset. Its operands are the block's parameters, which are configuration. -/
  | construct
  /-- `RESET` (rule R191): the soft reset. -/
  | reset
  /-- `PUSH b` (rule R100): one received byte. -/
  | push (b : Byte)
  /-- `IDLE` (rule R112): no call. -/
  | idle
  /-- `PUSH.SYNC` (rule R101): the byte is 0x55. -/
  | pushSync
  /-- `PUSH.CHECK` (rule R102): the byte is 0x5A, after a 0x55. -/
  | pushCheck
  /-- `PUSH.STORE` (rule R103): a payload byte, stored and summed. -/
  | pushStore (b : Byte)
  /-- `PUSH.LAST` (rule R104): the received checksum byte. -/
  | pushLast (b : Byte)
  /-- `PUSH.DROP` (rule R105): a byte out of sequence. -/
  | pushDrop (b : Byte)
  /-- `FRAME` (rule R97): the 24 pushes of one frame; `k` is the checksum byte, computed for `FRAME` and with bit 0
  inverted for `FRAME!`. -/
  | frame (f : FrameArgs) (k : Byte)
  /-- `UPD.VPARAM` (rule R141). -/
  | updVparam
  /-- `UPD.V` (rule R144). -/
  | updV
  /-- `UPD.IPARAM` (rule R142). -/
  | updIparam
  /-- `UPD.I` (rule R145). -/
  | updI
  /-- `UPD.PPARAM` (rule R143). -/
  | updPparam
  /-- `UPD.P` (rule R146). -/
  | updP
  /-- `UPD.PF` (rule R147). -/
  | updPf
  /-- `UPD.PFDATA` (rule R148). -/
  | updPfdata
  /-- `CHK` (rule R133). -/
  | chk
  /-- `GET.V` (rule R170). -/
  | getV
  /-- `GET.I` (rule R171). -/
  | getI
  /-- `GET.P` (rule R172). -/
  | getP
  /-- `GET.S` (rule R173). -/
  | getS
  /-- `GET.PF` (rule R174). -/
  | getPf
  /-- `GET.E` (rule R175). -/
  | getE
  deriving DecidableEq, Repr

/-- The five cases of `PUSH` (rule R100). -/
inductive PushCase where
  | sync
  | check
  | store
  | last
  | drop
  deriving DecidableEq, Repr

/-- The row of the operation table that a case of `PUSH b` is (rule R87). -/
def PushCase.toInstr : PushCase → Byte → Instr
  | .sync, _ => .pushSync
  | .check, _ => .pushCheck
  | .store, b => .pushStore b
  | .last, b => .pushLast b
  | .drop, b => .pushDrop b

/-- What the host presents next: a command word with its data byte (rule R91), a sample of an output port
(rule R92), or the pseudo-operation `FRAME` / `FRAME!` (rule R97). -/
inductive HostWord where
  | command (cmd : BitVec 3) (inData : Byte)
  | sample (port : ReadPort)
  | frame (f : FrameArgs) (k : Byte)
  deriving DecidableEq, Repr

/-- The encoded words of spec/opcode_table.json, one constructor per value of the table's "format". -/
inductive CodeWord where
  /-- `cmd3`: `rst : soft_reset : in_valid`, with the data byte beside it (rule R91). -/
  | cmd3 (cmd : BitVec 3) (inData : Byte)
  /-- `push10`: the decode word `sc[1:0] : b[7:0]` (rule R88). -/
  | push10 (w : BitVec 10)
  /-- `frame192`: the 192 bits of a frame, bit 191 the first to arrive (rule R80). -/
  | frame192 (w : BitVec 192)
  /-- `flags8`: the flags byte as one micro-operation of the update sees it (rule R82). Several micro-operations
  match one flags byte, so the word names the micro-operation that looks at it. -/
  | flags8 (lane : UpdLane) (flags : Byte)
  /-- `read`: a read has no command word, it is a sample of its output port (rule R92). -/
  | read (port : ReadPort)
  deriving DecidableEq, Repr

end Sys2Proof
end

