-- ==== Sys2Proof/Machine/State.lean ====
section
/-! DEFINITION. The machine's state as plain data (10_state.md, whole), the reasons a step can stop, and the state
after reset. -/
namespace Sys2Proof.Machine

/-- The three values of `st` (rule R30). -/
inductive SeqState where
  | searching
  | headerMatched
  | accumulating
  deriving DecidableEq, Repr

/-- The frame buffer `buf`, the block's only memory (rule R60): address and byte pairs at addresses 0 to 23, strictly
rising, without the addresses that hold 0x00, which is what an unlisted address reads as (rule R49: all 24 bytes are
0x00 after reset). -/
abbrev Memory := List Host.Cell

/-- The eight measurement registers (rule R20). -/
structure Regs where
  /-- `reg.vparam`, 24 bits. -/
  vparam : Word24
  /-- `reg.v`, 24 bits. -/
  v : Word24
  /-- `reg.iparam`, 24 bits. -/
  iparam : Word24
  /-- `reg.i`, 24 bits. -/
  i : Word24
  /-- `reg.pparam`, 24 bits. -/
  pparam : Word24
  /-- `reg.p`, 24 bits. -/
  p : Word24
  /-- `reg.pf`, 16 bits (rule R26). -/
  pf : Word16
  /-- `reg.pfdata`, an unsigned counter of `PFDATA_W` bits (rule R27), kept below `2 ^ PFDATA_W` by the only
  operation that changes it. A number, because its width is a parameter of the block. -/
  pfdata : Nat
  deriving DecidableEq, Repr

/-- The value a read operation returned to the host. -/
inductive Sampled where
  /-- `CHK` (rule R133). -/
  | flag (b : Bool)
  /-- A `GET` (rules R170 to R175). -/
  | quantity (x : Fp)
  deriving DecidableEq, Repr

/-- The machine.

`st` to `reg` are the block's state, all of it (rule R12). The last three fields are the model's own: the
parameters of the block, which no operation writes; what the host has yet to present, in order (rule R11: the host
chooses the sequence of operations); and the value that the latest read returned, since a read gives its value to
the host and changes nothing in the block (assumptions 2, 3, 4). -/
structure State where
  /-- The sequencer's state (rule R30). -/
  st : SeqState
  /-- The write index, 5 bits (rule R31). -/
  idx : BitVec 5
  /-- The running checksum accumulator, 8 bits (rule R40). -/
  acc : Byte
  /-- The frame buffer, 24 bytes (rule R41). -/
  buf : Memory
  /-- Frame complete: the result of the most recent `PUSH` (rule R42). -/
  fc : Bool
  /-- The measurement registers (rule R20). -/
  reg : Regs
  /-- The block's parameters. -/
  cfg : Config
  /-- What the host presents in the coming steps, first first. -/
  pending : List HostWord
  /-- What the latest read returned. -/
  sampled : Option Sampled
  deriving DecidableEq, Repr

/-- Reasons the machine stops with a fault: none. "No exceptions or error codes are used anywhere in the core"
(rules R15, R200), and no operation can form an address outside the buffer (rule R61). -/
inductive Fault where
  deriving DecidableEq, Repr

/-- Reasons the model gives no meaning. -/
inductive Refusal where
  /-- An operation that has no meaning yet. Raised by no arm of `exec` (safe). -/
  | notModelled (mnemonic : String)
  /-- The block's parameters are not positive finite numbers, or `PFDATA_W` is 0: the spec has a model refuse such a
  block (rule R190, U4, D15). Raised by `step` and by `CONSTRUCT` (safe). -/
  | illegalParameters
  deriving DecidableEq, Repr

/-- All eight measurement registers at 0 (rule R49). -/
def Regs.zero : Regs :=
  { vparam := 0, v := 0, iparam := 0, i := 0, pparam := 0, p := 0, pf := 0, pfdata := 0 }

/-- The reset state of rule R49 for a block with the parameters `c`, with nothing presented and nothing read yet. -/
def State.resetOf (c : Config) : State :=
  { st := .searching
    idx := 0
    acc := 0
    buf := []
    fc := false
    reg := Regs.zero
    cfg := c
    pending := []
    sampled := none }

/-- The machine right after reset (rule R49), with the default parameters. -/
def State.reset : State := State.resetOf Config.standard

end Sys2Proof.Machine
end

