-- ==== Sys2Proof/Machine/Ops.lean ====
section
/-! DEFINITION. The named operations over the buffer and the registers (20_memory.md), the sequencer's return to
Searching, the reset, and the hand-over of a read's value. -/
namespace Sys2Proof.Machine

/-! ## The buffer -/

/-- The byte at one address: an unlisted address reads as 0x00 (rule R49). -/
def Memory.read : Memory → Nat → Byte
  | [], _ => 0
  | (k, x) :: m, a => if k = a then x else Memory.read m a

/-- The cells without the address `a`. -/
def Memory.erase : Memory → Nat → Memory
  | [], _ => []
  | (k, x) :: m, a => if k = a then Memory.erase m a else (k, x) :: Memory.erase m a

/-- The cells with `(a, v)` before the first higher address. -/
def Memory.insert : Memory → Nat → Byte → Memory
  | [], a, v => [(a, v)]
  | (k, x) :: m, a, v => if a < k then (a, v) :: (k, x) :: m else (k, x) :: Memory.insert m a v

/-- `MemWrite(a, 1, v)`: one byte, the only width there is (rule R64). Writing 0x00 removes the cell. -/
def Memory.write (m : Memory) (a : Nat) (v : Byte) : Memory :=
  if v = 0 then Memory.erase m a else Memory.insert (Memory.erase m a) a v

/-- The canonical form from the lower bound `lo` on: addresses strictly rising, inside the buffer (rule R60), none
holding what an unlisted address reads as. -/
def Memory.wfFrom : Nat → Memory → Bool
  | _, [] => true
  | lo, (k, x) :: m => decide (lo ≤ k) && decide (k < frameLen) && (x != 0) && Memory.wfFrom (k + 1) m

/-- The canonical form of the buffer. -/
def Memory.wf (m : Memory) : Bool := Memory.wfFrom 0 m

/-- `MemRead(a, n)`: the `n` bytes from `a` as one unsigned number, big-endian (rule R63). -/
def memRead (m : Memory) (a : Nat) : Nat → Nat
  | 0 => 0
  | n + 1 => memRead m a n * 256 + (m.read (a + n)).toNat

/-- The sum modulo 256 of the `n` bytes from `a`. -/
def sumBytes (m : Memory) (a : Nat) : Nat → Byte
  | 0 => 0
  | n + 1 => sumBytes m a n + m.read (a + n)

/-- `cksum(buf)`: the sum of bytes 2 to 22 modulo 256 (rule R130). -/
def cksum (m : Memory) : Byte := sumBytes m 2 21

/-! ## The state -/

/-- `MemWrite(a, 1, v)` on the machine's buffer (rule R64). -/
def State.store (s : State) (a : Nat) (v : Byte) : State := { s with buf := s.buf.write a v }

/-- The sequencer and the accumulator: the transfer of control that stands where a processor writes its program
counter (rule R33). -/
def State.goto (s : State) (st : SeqState) (idx : BitVec 5) (acc : Byte) : State :=
  { s with st := st, idx := idx, acc := acc }

/-- The return to Searching, "reset to empty" of rule R34: the sequencer and the accumulator, not the buffer. This is
what the block has in the place of an exception entry (rules R200, R208): nothing is saved, and from here the next
header resumes decoding (rule R209). -/
def State.toSearching (s : State) : State := s.goto .searching 0 0

/-- The result of a `PUSH` (rule R42). -/
def State.setFc (s : State) (fc : Bool) : State := { s with fc := fc }

/-- The measurement registers. -/
def State.setReg (s : State) (r : Regs) : State := { s with reg := r }

/-- The value a read returns to the host; a read changes nothing else (rules R66, R176). -/
def State.sample (s : State) (x : Sampled) : State := { s with sampled := some x }

/-- The reset state of rule R49, which `CONSTRUCT` and `RESET` both reach (rules R190, R191). The parameters stay, and so
does what is not the block's: the host's coming operations and the value it read last. -/
def State.clear (s : State) : State :=
  { s with st := .searching, idx := 0, acc := 0, buf := [], fc := false, reg := Regs.zero }

end Sys2Proof.Machine
end

