-- ==== Sys2Proof/Machine/Operands.lean ====
section
/-! DEFINITION. Every operand form: the fields of the frame in the buffer (rules R62, R83) and the integer operands of
the calculator (rule R175). -/
namespace Sys2Proof.Machine

/-- A 24-bit field: `MemRead(a, 3)`, the bits as they stand (rule R83). -/
def field24 (m : Memory) (a : Nat) : Word24 := BitVec.ofNat 24 (memRead m a 3)

/-- A 16-bit field: `MemRead(a, 2)` (rule R83). -/
def field16 (m : Memory) (a : Nat) : Word16 := BitVec.ofNat 16 (memRead m a 2)

/-- Frame bytes 2 to 4. -/
def fieldVparam (m : Memory) : Word24 := field24 m 2

/-- Frame bytes 5 to 7. -/
def fieldV (m : Memory) : Word24 := field24 m 5

/-- Frame bytes 8 to 10. -/
def fieldIparam (m : Memory) : Word24 := field24 m 8

/-- Frame bytes 11 to 13. -/
def fieldI (m : Memory) : Word24 := field24 m 11

/-- Frame bytes 14 to 16. -/
def fieldPparam (m : Memory) : Word24 := field24 m 14

/-- Frame bytes 17 to 19. -/
def fieldP (m : Memory) : Word24 := field24 m 17

/-- Frame byte 20, the flags byte. -/
def fieldFlags (m : Memory) : Byte := m.read 20

/-- Frame bytes 21 to 22. -/
def fieldPf (m : Memory) : Word16 := field16 m 21

/-- Frame byte 23, the checksum byte. -/
def fieldChecksum (m : Memory) : Byte := m.read 23

/-- `N = pfdata * 65536 + pf`, formed exactly (rule R175, decision D12). -/
def energyCount (r : Regs) : Nat := r.pfdata * 65536 + r.pf.toNat

end Sys2Proof.Machine
end

