-- ==== Sys2Proof/Machine/Flags.lean ====
section
/-! DEFINITION. Every flag: the four gate bits of the flags byte (rule R82), the gate itself (rule R151), and the two status
outputs (rule R43). -/
namespace Sys2Proof.Machine

/-- Flags bit 7: energy-pulse overflow (rule R82). Bit 0 is the least significant (rule R9). -/
def flagOverflow (flags : Byte) : Bool := flags.getLsbD 7

/-- Flags bit 6: the voltage is valid. -/
def flagVoltage (flags : Byte) : Bool := flags.getLsbD 6

/-- Flags bit 5: the current is valid. -/
def flagCurrent (flags : Byte) : Bool := flags.getLsbD 5

/-- Flags bit 4: the power is valid. -/
def flagPower (flags : Byte) : Bool := flags.getLsbD 4

/-- `upd_if(flag, old, new)` (rule R151). -/
def updIf {α : Type} (flag : Bool) (old new : α) : α := if flag then new else old

/-- `frame_complete`, the value of `fc` (rule R43). -/
def State.frameComplete (s : State) : Bool := s.fc

/-- `checksum_valid`, recomputed from the buffer whenever it is read (rules R43, R133). -/
def State.checksumValid (s : State) : Bool := cksum s.buf == fieldChecksum s.buf

end Sys2Proof.Machine
end

