-- ==== Sys2Proof/Machine/Float.lean ====
section
/-! DEFINITION. The floating-point primitives `fdiv`, `fmul`, `fcvt` of 43_calculator.md section 1, in the format
`FPFMT`: exact integer computation, then one rounding (rules R161, R162). -/
namespace Sys2Proof

/-- `+0` and `-0`. -/
def Fp.zero (neg : Bool) : Fp := .fin neg 0 0

/-- A finite number of magnitude `sig * 2 ^ exp`, or the infinity if that exceeds the largest finite number
(rule R161). `sig` may be `2 ^ precision`, when rounding carried out of the top bit. -/
def Fp.pack (fmt : FpFmt) (neg : Bool) (sig exp : Nat) : Fp :=
  let carried := sig = 2 ^ fmt.precision
  let sig' := if carried then 2 ^ (fmt.precision - 1) else sig
  let exp' := if carried then exp + 1 else exp
  if fmt.maxExp < exp' then .inf neg else .fin neg sig' exp'

/-- The quotient `n / d` rounded to the nearest integer, ties to the even one (roundTiesToEven). -/
def roundDiv (n d : Nat) : Nat :=
  let m := n / d
  let r := n % d
  if d < 2 * r || (2 * r == d && m % 2 == 1) then m + 1 else m

/-- The exponent at which `n / d` is rounded: the least that leaves at most `precision` bits before the point. At 0 the
result is subnormal or in the lowest normal range (gradual underflow, rule R161). -/
def roundExp (fmt : FpFmt) (n d : Nat) : Nat := Nat.log2 (n / d) + 1 - fmt.precision

/-- The number `n / d`, in units of the format's smallest positive number, rounded once to the nearest
representable value, ties to even (rule R161). -/
def Fp.round (fmt : FpFmt) (neg : Bool) (n d : Nat) : Fp :=
  let e := roundExp fmt n d
  Fp.pack fmt neg (roundDiv n (d * 2 ^ e)) e

/-- `fdiv(a, b)`: IEEE 754 division (rule R161). -/
def fdiv (fmt : FpFmt) : Fp → Fp → Fp
  | .nan, _ => .nan
  | _, .nan => .nan
  | .inf _, .inf _ => .nan
  | .inf a, .fin b _ _ => .inf (a != b)
  | .fin a _ _, .inf b => Fp.zero (a != b)
  | .fin a sa ea, .fin b sb eb =>
    if sb = 0 then if sa = 0 then .nan else .inf (a != b)
    else Fp.round fmt (a != b) (sa * 2 ^ ea * 2 ^ fmt.ulpScale) (sb * 2 ^ eb)

/-- `fmul(a, b)`: IEEE 754 multiplication (rule R161). -/
def fmul (fmt : FpFmt) : Fp → Fp → Fp
  | .nan, _ => .nan
  | _, .nan => .nan
  | .inf a, .inf b => .inf (a != b)
  | .inf a, .fin b sb _ => if sb = 0 then .nan else .inf (a != b)
  | .fin a sa _, .inf b => if sa = 0 then .nan else .inf (a != b)
  | .fin a sa ea, .fin b sb eb =>
    Fp.round fmt (a != b) (sa * 2 ^ ea * (sb * 2 ^ eb)) (2 ^ fmt.ulpScale)

/-- `fcvt(n)`: an unsigned integer to the format, roundTiesToEven (rule R162). -/
def fcvt (fmt : FpFmt) (n : Nat) : Fp := Fp.round fmt false (n * 2 ^ fmt.ulpScale) 1

/-- A parameter's value rounded to the nearest representable one (rule R164). The cases of a zero denominator give the
values that an infinite or indefinite parameter would have; such a block is refused (U4). -/
def Ohms.toFp (fmt : FpFmt) (r : Ohms) : Fp :=
  if r.den = 0 then if r.num = 0 then .nan else .inf (decide (r.num < 0))
  else Fp.round fmt (decide (r.num < 0)) (r.num.natAbs * 2 ^ fmt.ulpScale) r.den

/-- The pairs that are a number of the format in its one canonical form: subnormal or zero at exponent 0, else with the top
bit of the significand set (rule R160). Infinities and the one NaN are canonical. -/
def Fp.canonical (fmt : FpFmt) : Fp → Bool
  | .nan => true
  | .inf _ => true
  | .fin _ sig exp =>
    decide (sig < 2 ^ fmt.precision) && decide (exp ≤ fmt.maxExp) &&
      (decide (exp = 0) || decide (2 ^ (fmt.precision - 1) ≤ sig))

/-- Negative numbers, -0 and -Inf (rule R160 says that none arises). -/
def Fp.isNegative : Fp → Bool
  | .nan => false
  | .inf neg => neg
  | .fin neg _ _ => neg

/-- A positive number or +Inf. -/
def Fp.isPositive : Fp → Bool
  | .nan => false
  | .inf neg => !neg
  | .fin neg sig _ => !neg && decide (0 < sig)

/-- A finite number that is not negative: +0 or a positive one. -/
def Fp.isFiniteNonneg : Fp → Bool
  | .fin neg _ _ => !neg
  | .nan => false
  | .inf _ => false

/-- A positive number that is not +Inf. -/
def Fp.isPositiveFinite : Fp → Bool
  | .fin neg sig _ => !neg && decide (0 < sig)
  | .nan => false
  | .inf _ => false

/-- The biased exponent and trailing significand of the interchange encoding, as one number. -/
def Fp.magnitudeBits (fmt : FpFmt) (sig exp : Nat) : Nat :=
  if sig < 2 ^ (fmt.precision - 1) then sig else exp * 2 ^ (fmt.precision - 1) + sig

/-- The bits of an infinity without its sign: the exponent field all ones. -/
def Fp.infinityBits (fmt : FpFmt) : Nat := (fmt.maxExp + 2) * 2 ^ (fmt.precision - 1)

/-- The IEEE 754 interchange encoding that an output port carries (rule R92): sign, biased exponent, trailing significand.
None for NaN, whose sign and payload are not specified (rule R163, U1). -/
def Fp.encoding (fmt : FpFmt) : Fp → Option (BitVec fmt.width)
  | .nan => none
  | .inf neg => some (BitVec.ofNat fmt.width ((if neg then 2 ^ (fmt.width - 1) else 0) + Fp.infinityBits fmt))
  | .fin neg sig exp =>
    some (BitVec.ofNat fmt.width ((if neg then 2 ^ (fmt.width - 1) else 0) + Fp.magnitudeBits fmt sig exp))

/-- The interchange encoding as a number. -/
def Fp.bits (fmt : FpFmt) (x : Fp) : Option Nat := (Fp.encoding fmt x).map BitVec.toNat

/-- A bit pattern that is a quiet NaN: the exponent field all ones and the top trailing bit 1. -/
def isQuietNan (fmt : FpFmt) (bits : BitVec fmt.width) : Bool :=
  let quiet := Fp.infinityBits fmt + 2 ^ (fmt.precision - 2)
  decide (quiet ≤ bits.toNat % 2 ^ (fmt.width - 1))

/-- Whether `bits` may stand on an output port whose value is `x` (rules R92, R163): the encoding of `x`, or, for NaN, any
quiet NaN at all. -/
def portCarries (fmt : FpFmt) (x : Fp) (bits : BitVec fmt.width) : Bool :=
  match Fp.encoding fmt x with
  | some e => decide (bits = e)
  | none => isQuietNan fmt bits

end Sys2Proof
end

