-- ==== Sys2Proof/Machine/Calculator.lean ====
section
/-! DEFINITION. The measurement calculator: coefficients and the six GET reads (43_calculator.md). Every formula is
evaluated as written, one rounded operation at a time (rule R167). -/
namespace Sys2Proof.Machine

/-- `voltageCoefficient`, `vc` = `fdiv(R1, fmul(1000, R2))` (rule R164). -/
def vc (c : Config) : Fp :=
  fdiv c.fmt (c.voltageR1.toFp c.fmt) (fmul c.fmt (fcvt c.fmt 1000) (c.voltageR2.toFp c.fmt))

/-- `currentCoefficient`, `cc` = `fdiv(1, fmul(1000, RS))` (rule R164). -/
def cc (c : Config) : Fp :=
  fdiv c.fmt (fcvt c.fmt 1) (fmul c.fmt (fcvt c.fmt 1000) (c.currentShuntR.toFp c.fmt))

/-- The constant `K`: the value nearest to 36,000,000,000,000 (rule R166). -/
def constK (c : Config) : Fp := fcvt c.fmt 36000000000000

/-- The quotient of two registers, each converted first (rule R162). -/
def regRatio (c : Config) (num den : Word24) : Fp :=
  fdiv c.fmt (fcvt c.fmt num.toNat) (fcvt c.fmt den.toNat)

/-- effectiveVoltage, volts (rule R170). -/
def effectiveVoltage (c : Config) (r : Regs) : Fp := fmul c.fmt (regRatio c r.vparam r.v) (vc c)

/-- effectiveCurrent, amperes (rule R171). -/
def effectiveCurrent (c : Config) (r : Regs) : Fp := fmul c.fmt (regRatio c r.iparam r.i) (cc c)

/-- activePower (rule R172). -/
def activePower (c : Config) (r : Regs) : Fp :=
  fmul c.fmt (fmul c.fmt (regRatio c r.pparam r.p) (vc c)) (cc c)

/-- apparentPower: the product of the two rounded results (rule R173). -/
def apparentPower (c : Config) (r : Regs) : Fp :=
  fmul c.fmt (effectiveVoltage c r) (effectiveCurrent c r)

/-- powerFactor (rule R174). -/
def powerFactor (c : Config) (r : Regs) : Fp := fdiv c.fmt (activePower c r) (apparentPower c r)

/-- `pulse` = `fdiv(fdiv(K, fcvt(reg.pparam)), GET.S)` (rule R175). -/
def pulseCount (c : Config) (r : Regs) : Fp :=
  fdiv c.fmt (fdiv c.fmt (constK c) (fcvt c.fmt r.pparam.toNat)) (apparentPower c r)

/-- electricalQuantity, kilowatt-hours (rule R175). -/
def electricalQuantity (c : Config) (r : Regs) : Fp :=
  fdiv c.fmt (fcvt c.fmt (energyCount r)) (pulseCount c r)

/-- The operation `GET.V` (rule R170). -/
def execGetV (s : State) : Host.Outcome State Fault Refusal :=
  .next (s.sample (.quantity (effectiveVoltage s.cfg s.reg)))

/-- The operation `GET.I` (rule R171). -/
def execGetI (s : State) : Host.Outcome State Fault Refusal :=
  .next (s.sample (.quantity (effectiveCurrent s.cfg s.reg)))

/-- The operation `GET.P` (rule R172). -/
def execGetP (s : State) : Host.Outcome State Fault Refusal :=
  .next (s.sample (.quantity (activePower s.cfg s.reg)))

/-- The operation `GET.S` (rule R173). -/
def execGetS (s : State) : Host.Outcome State Fault Refusal :=
  .next (s.sample (.quantity (apparentPower s.cfg s.reg)))

/-- The operation `GET.PF` (rule R174). -/
def execGetPf (s : State) : Host.Outcome State Fault Refusal :=
  .next (s.sample (.quantity (powerFactor s.cfg s.reg)))

/-- The operation `GET.E` (rule R175). -/
def execGetE (s : State) : Host.Outcome State Fault Refusal :=
  .next (s.sample (.quantity (electricalQuantity s.cfg s.reg)))

/-- The eight output ports (rule R92): what the host can observe after an operation (decision D25). -/
structure Outputs where
  frameComplete : Bool
  checksumValid : Bool
  vEff : Fp
  iEff : Fp
  pActive : Fp
  pApparent : Fp
  powerFactor : Fp
  energyKwh : Fp
  deriving DecidableEq, Repr

/-- The value of every output port in a state (rule R92). -/
def State.outputs (s : State) : Outputs :=
  { frameComplete := s.frameComplete
    checksumValid := s.checksumValid
    vEff := effectiveVoltage s.cfg s.reg
    iEff := effectiveCurrent s.cfg s.reg
    pActive := activePower s.cfg s.reg
    pApparent := apparentPower s.cfg s.reg
    powerFactor := powerFactor s.cfg s.reg
    energyKwh := electricalQuantity s.cfg s.reg }

end Sys2Proof.Machine
end

