-- ==== Sys2Proof/Machine/Control.lean ====
section
/-! DEFINITION. The control operations CONSTRUCT and RESET (44_control.md). -/
namespace Sys2Proof.Machine

/-- The operation `CONSTRUCT` (rule R190): the hard reset. A block whose parameters are not positive finite numbers is
refused (rule R190, U4). -/
def execConstruct (s : State) : Host.Outcome State Fault Refusal :=
  if s.cfg.legal then .next s.clear else .refused .illegalParameters

/-- The operation `RESET` (rule R191): the soft reset. -/
def execReset (s : State) : Host.Outcome State Fault Refusal := .next s.clear

end Sys2Proof.Machine
end

