-- ==== Sys2Proof/Machine/Bytes.lean ====
section
/-! DEFINITION. Byte-order helpers: a field as its big-endian bytes (rules R10, R63), and the bytes of a frame
(rules R80, R84, R97). -/
namespace Sys2Proof

/-- The three bytes of a 24-bit field in arrival order, most significant first (rule R10). -/
def bytesOf24 (w : Word24) : List Byte :=
  [w.extractLsb' 16 8, w.extractLsb' 8 8, w.extractLsb' 0 8]

/-- The two bytes of the 16-bit field in arrival order, most significant first (rule R10). -/
def bytesOf16 (w : Word16) : List Byte :=
  [w.extractLsb' 8 8, w.extractLsb' 0 8]

/-- The 21 checksummed bytes of a frame, bytes 2 to 22 (rule R80). -/
def FrameArgs.payload (f : FrameArgs) : List Byte :=
  bytesOf24 f.vparam ++ bytesOf24 f.v ++ bytesOf24 f.iparam ++ bytesOf24 f.i ++
    bytesOf24 f.pparam ++ bytesOf24 f.p ++ [f.flags] ++ bytesOf16 f.pf

/-- The checksum byte that rule R84 computes from the 21 checksummed bytes: their sum modulo 256. -/
def FrameArgs.cksum (f : FrameArgs) : Byte :=
  f.payload.foldl (· + ·) 0

/-- The 24 bytes of a frame in arrival order, with the checksum byte `k` (rules R80, R97). -/
def FrameArgs.bytes (f : FrameArgs) (k : Byte) : List Byte :=
  [stateMarker, checkMarker] ++ f.payload ++ [k]

/-- `FRAME(...)` carries the computed checksum byte, `FRAME!(...)` the same with bit 0 inverted (rule R97). -/
def FrameArgs.checksumByte (f : FrameArgs) (inverted : Bool) : Byte :=
  if inverted then f.cksum ^^^ 1 else f.cksum

end Sys2Proof
end

