-- ==== Sys2Proof/Machine/Update.lean ====
section
/-! DEFINITION. Field extraction and gated register update: the UPD family (42_extract.md). -/
namespace Sys2Proof.Machine

/-! What each gated micro-operation makes of its register. -/

/-- `reg.v` after the update: loaded if flags bit 6 is set (rule R144). -/
def State.nextV (s : State) : Word24 := updIf (flagVoltage (fieldFlags s.buf)) s.reg.v (fieldV s.buf)

/-- `reg.i` after the update: loaded if flags bit 5 is set (rule R145). -/
def State.nextI (s : State) : Word24 := updIf (flagCurrent (fieldFlags s.buf)) s.reg.i (fieldI s.buf)

/-- `reg.p` after the update: loaded if flags bit 4 is set (rule R146). -/
def State.nextP (s : State) : Word24 := updIf (flagPower (fieldFlags s.buf)) s.reg.p (fieldP s.buf)

/-- `reg.pfdata` after the update: one more if flags bit 7 is set (rule R148), modulo `2 ^ PFDATA_W` (rule R27). -/
def State.nextPfdata (s : State) : Nat :=
  updIf (flagOverflow (fieldFlags s.buf)) s.reg.pfdata ((s.reg.pfdata + 1) % 2 ^ s.cfg.pfdataW)

/-! The eight micro-operations. -/

/-- `UPD.VPARAM` (rule R141). -/
def State.updVparam (s : State) : State := s.setReg { s.reg with vparam := fieldVparam s.buf }

/-- `UPD.V` (rule R144). -/
def State.updV (s : State) : State := s.setReg { s.reg with v := s.nextV }

/-- `UPD.IPARAM` (rule R142). -/
def State.updIparam (s : State) : State := s.setReg { s.reg with iparam := fieldIparam s.buf }

/-- `UPD.I` (rule R145). -/
def State.updI (s : State) : State := s.setReg { s.reg with i := s.nextI }

/-- `UPD.PPARAM` (rule R143). -/
def State.updPparam (s : State) : State := s.setReg { s.reg with pparam := fieldPparam s.buf }

/-- `UPD.P` (rule R146). -/
def State.updP (s : State) : State := s.setReg { s.reg with p := s.nextP }

/-- `UPD.PF` (rule R147). -/
def State.updPf (s : State) : State := s.setReg { s.reg with pf := fieldPf s.buf }

/-- `UPD.PFDATA` (rule R148). -/
def State.updPfdata (s : State) : State := s.setReg { s.reg with pfdata := s.nextPfdata }

/-- `UPDATE()` (rule R140): the eight micro-operations, taken as simultaneous, as the rule allows. -/
def State.update (s : State) : State :=
  s.setReg
    { vparam := fieldVparam s.buf
      v := s.nextV
      iparam := fieldIparam s.buf
      i := s.nextI
      pparam := fieldPparam s.buf
      p := s.nextP
      pf := fieldPf s.buf
      pfdata := s.nextPfdata }

/-- The operation `UPD.VPARAM`. -/
def execUpdVparam (s : State) : Host.Outcome State Fault Refusal := .next s.updVparam

/-- The operation `UPD.V`. -/
def execUpdV (s : State) : Host.Outcome State Fault Refusal := .next s.updV

/-- The operation `UPD.IPARAM`. -/
def execUpdIparam (s : State) : Host.Outcome State Fault Refusal := .next s.updIparam

/-- The operation `UPD.I`. -/
def execUpdI (s : State) : Host.Outcome State Fault Refusal := .next s.updI

/-- The operation `UPD.PPARAM`. -/
def execUpdPparam (s : State) : Host.Outcome State Fault Refusal := .next s.updPparam

/-- The operation `UPD.P`. -/
def execUpdP (s : State) : Host.Outcome State Fault Refusal := .next s.updP

/-- The operation `UPD.PF`. -/
def execUpdPf (s : State) : Host.Outcome State Fault Refusal := .next s.updPf

/-- The operation `UPD.PFDATA`. -/
def execUpdPfdata (s : State) : Host.Outcome State Fault Refusal := .next s.updPfdata

end Sys2Proof.Machine
end

