-- ==== Sys2Proof/Machine/Framing.lean ====
section
/-! DEFINITION. The frame buffer and state machine: the PUSH family, IDLE, and the pseudo-operation FRAME
(40_framing.md, rule R97). -/
namespace Sys2Proof.Machine

/-- The case of `PUSH b`, tested in the normative order of rule R100. It reads `b`, `st` and `idx` and nothing else. -/
def State.pushCase (s : State) (b : Byte) : PushCase :=
  if b = stateMarker then .sync
  else if s.st = .headerMatched ∧ b = checkMarker then .check
  else if s.st = .accumulating ∧ 2 ≤ s.idx.toNat ∧ s.idx.toNat ≤ 23 then
    if s.idx.toNat ≤ 22 then .store else .last
  else .drop

/-- The state class `sc[1:0]` (rule R88): a function of `st` and `idx`, stored nowhere. -/
def State.stateClass (s : State) : BitVec 2 :=
  match s.st with
  | .headerMatched => 0b01
  | .accumulating =>
    if 2 ≤ s.idx.toNat ∧ s.idx.toNat ≤ 22 then 0b10 else if s.idx.toNat = 23 then 0b11 else 0b00
  | .searching => 0b00

/-- The decode word `sc[1:0] : b[7:0]` of `PUSH b` (rule R88). -/
def State.decodeWord (s : State) (b : Byte) : BitVec 10 := s.stateClass ++ b

/-- The effect of `PUSH.SYNC` (rule R101): `acc` is left as it was. -/
def State.pushSync (s : State) : State :=
  ((s.store 0 stateMarker).goto .headerMatched 1 s.acc).setFc false

/-- The effect of `PUSH.CHECK` (rule R102). -/
def State.pushCheck (s : State) : State :=
  ((s.store 1 checkMarker).goto .accumulating 2 0).setFc false

/-- The effect of `PUSH.STORE` (rule R103). -/
def State.pushStore (s : State) (b : Byte) : State :=
  ((s.store s.idx.toNat b).goto s.st (s.idx + 1) (s.acc + b)).setFc false

/-- The effect of `PUSH.LAST` (rule R104): the store of byte 23, the comparison with the byte just stored, the update if
they agree, and the return to Searching either way. The write index stands at 24 in between and nothing reads it. -/
def State.pushLast (s : State) (b : Byte) : State :=
  let stored := (s.store 23 b).goto s.st 24 s.acc
  let updated := if stored.acc = fieldChecksum stored.buf then stored.update else stored
  updated.toSearching.setFc true

/-- The effect of `PUSH.DROP` (rule R105): the byte is discarded. -/
def State.pushDrop (s : State) : State := s.toSearching.setFc false

/-- `PUSH b` (rule R100): exactly one of the five cases. -/
def State.push (s : State) (b : Byte) : State :=
  match s.pushCase b with
  | .sync => s.pushSync
  | .check => s.pushCheck
  | .store => s.pushStore b
  | .last => s.pushLast b
  | .drop => s.pushDrop

/-- The operation `PUSH b`. -/
def execPush (b : Byte) (s : State) : Host.Outcome State Fault Refusal := .next (s.push b)

/-- The operation `IDLE` (rule R112): no state changes. -/
def execIdle (s : State) : Host.Outcome State Fault Refusal := .next s

/-! The five cases as operations. A case is not something the host can ask for: the block selects it from the byte and its
state (rule R100). So each runs its own effect where the block would select it, and where the block would select
another case for the same byte, that case runs (assumption 5). -/

/-- The operation `PUSH.SYNC`, which 0x55 selects in every state (rule R101). -/
def execPushSync (s : State) : Host.Outcome State Fault Refusal := .next s.pushSync

/-- The operation `PUSH.CHECK` (rule R102). -/
def execPushCheck (s : State) : Host.Outcome State Fault Refusal :=
  .next (if s.pushCase checkMarker = .check then s.pushCheck else s.push checkMarker)

/-- The operation `PUSH.STORE` (rule R103). -/
def execPushStore (b : Byte) (s : State) : Host.Outcome State Fault Refusal :=
  .next (if s.pushCase b = .store then s.pushStore b else s.push b)

/-- The operation `PUSH.LAST` (rule R104). -/
def execPushLast (b : Byte) (s : State) : Host.Outcome State Fault Refusal :=
  .next (if s.pushCase b = .last then s.pushLast b else s.push b)

/-- The operation `PUSH.DROP` (rule R105). -/
def execPushDrop (b : Byte) (s : State) : Host.Outcome State Fault Refusal :=
  .next (if s.pushCase b = .drop then s.pushDrop else s.push b)

/-- The pushes of a list of bytes, left to right (rule R97). -/
def State.pushAll (s : State) : List Byte → State
  | [] => s
  | b :: bs => (s.push b).pushAll bs

/-- The pseudo-operation `FRAME` (rule R97): its 24 pushes. -/
def execFrame (f : FrameArgs) (k : Byte) (s : State) : Host.Outcome State Fault Refusal :=
  .next (s.pushAll (f.bytes k))

end Sys2Proof.Machine
end

