-- ==== Sys2Proof/Machine/Validator.lean ====
section
/-! DEFINITION. The CHK read (41_validator.md). -/
namespace Sys2Proof.Machine

/-- The operation `CHK` (rule R133): the host reads `valid(buf)`. -/
def execChk (s : State) : Host.Outcome State Fault Refusal := .next (s.sample (.flag s.checksumValid))

end Sys2Proof.Machine
end

