-- ==== Sys2Proof/Machine/Dispatch.lean ====
section
/-! DEFINITION. The meaning of every operation: one arm per row of spec/opcode_table.json. -/
namespace Sys2Proof.Machine

/-- The outcome of performing `i` in `s`. -/
def exec (i : Instr) (s : State) : Host.Outcome State Fault Refusal :=
  match i with
  | .construct => Sys2Proof.Machine.execConstruct s
  | .reset => Sys2Proof.Machine.execReset s
  | .push b => Sys2Proof.Machine.execPush b s
  | .idle => Sys2Proof.Machine.execIdle s
  | .pushSync => Sys2Proof.Machine.execPushSync s
  | .pushCheck => Sys2Proof.Machine.execPushCheck s
  | .pushStore b => Sys2Proof.Machine.execPushStore b s
  | .pushLast b => Sys2Proof.Machine.execPushLast b s
  | .pushDrop b => Sys2Proof.Machine.execPushDrop b s
  | .frame f k => Sys2Proof.Machine.execFrame f k s
  | .updVparam => Sys2Proof.Machine.execUpdVparam s
  | .updV => Sys2Proof.Machine.execUpdV s
  | .updIparam => Sys2Proof.Machine.execUpdIparam s
  | .updI => Sys2Proof.Machine.execUpdI s
  | .updPparam => Sys2Proof.Machine.execUpdPparam s
  | .updP => Sys2Proof.Machine.execUpdP s
  | .updPf => Sys2Proof.Machine.execUpdPf s
  | .updPfdata => Sys2Proof.Machine.execUpdPfdata s
  | .chk => Sys2Proof.Machine.execChk s
  | .getV => Sys2Proof.Machine.execGetV s
  | .getI => Sys2Proof.Machine.execGetI s
  | .getP => Sys2Proof.Machine.execGetP s
  | .getS => Sys2Proof.Machine.execGetS s
  | .getPf => Sys2Proof.Machine.execGetPf s
  | .getE => Sys2Proof.Machine.execGetE s

end Sys2Proof.Machine
end

