-- ==== Sys2Proof/WellFormed.lean ====
section
/-! DEFINITION. Which terms of `Instr` are operations of the spec. -/
namespace Sys2Proof

/-- A term of `Instr` that the spec's encodings can produce.

`PUSH.STORE`, `PUSH.LAST` and `PUSH.DROP` never carry 0x55, which is always `PUSH.SYNC` (rules R103, R104, R105);
a `FRAME` carries its computed checksum byte, a `FRAME!` that byte with bit 0 inverted (rule R97). -/
def Instr.wellFormed : Instr → Bool
  | .construct => true
  | .reset => true
  | .push _ => true
  | .idle => true
  | .pushSync => true
  | .pushCheck => true
  | .pushStore b => b != stateMarker
  | .pushLast b => b != stateMarker
  | .pushDrop b => b != stateMarker
  | .frame f k => k == f.checksumByte false || k == f.checksumByte true
  | .updVparam => true
  | .updV => true
  | .updIparam => true
  | .updI => true
  | .updPparam => true
  | .updP => true
  | .updPf => true
  | .updPfdata => true
  | .chk => true
  | .getV => true
  | .getI => true
  | .getP => true
  | .getS => true
  | .getPf => true
  | .getE => true

/-- `i` is an operation of the spec. -/
abbrev WellFormed (i : Instr) : Prop := i.wellFormed = true

end Sys2Proof
end

