-- ==== Sys2Proof/Decode.lean ====
section
/-! DEFINITION. Decoding and encoding, written from 30_encoding.md: the command word (rule R91), the decode word of
`PUSH` (rule R88), the frame (rule R80), the flags byte (rule R82), the reads (rule R92). -/
namespace Sys2Proof

/-- Why a word is no operation. -/
inductive DecodeError where
  /-- A 192-bit word that does not begin with the two markers is no `FRAME` (rule R81). -/
  | frameHeader
  /-- The gate bit of the micro-operation is 0 in the flags byte, so it does not fire (rule R82). -/
  | gateClear
  deriving DecidableEq, Repr

/-- The command operation of a cycle: the first matching row of rule R91, as match and mask on `cmd[2:0]`.
`in_data` is ignored unless the operation is `PUSH`. -/
def decodeCommand (cmd : BitVec 3) (inData : Byte) : Instr :=
  if cmd &&& 0b100 = 0b100 then .construct
  else if cmd &&& 0b110 = 0b010 then .reset
  else if cmd &&& 0b111 = 0b001 then .push inData
  else .idle

/-- The case of `PUSH` that the decode word `sc[1:0] : b[7:0]` selects: the first matching row of rule R88. -/
def decodePush (w : BitVec 10) : Instr :=
  if w &&& 0x0FF = 0x055 then .pushSync
  else if w &&& 0x3FF = 0x15A then .pushCheck
  else if w &&& 0x300 = 0x200 then .pushStore (w.extractLsb' 0 8)
  else if w &&& 0x300 = 0x300 then .pushLast (w.extractLsb' 0 8)
  else .pushDrop (w.extractLsb' 0 8)

/-- The fields of a frame at the bit positions of the table under rule R80. -/
def frameFields (w : BitVec 192) : FrameArgs :=
  { vparam := w.extractLsb' 152 24
    v := w.extractLsb' 128 24
    iparam := w.extractLsb' 104 24
    i := w.extractLsb' 80 24
    pparam := w.extractLsb' 56 24
    p := w.extractLsb' 32 24
    flags := w.extractLsb' 24 8
    pf := w.extractLsb' 8 16 }

/-- A frame begins with the two markers and with nothing else (rule R81). -/
def decodeFrame (w : BitVec 192) : Except DecodeError Instr :=
  if w.extractLsb' 176 16 = 0x555A then .ok (.frame (frameFields w) (w.extractLsb' 0 8))
  else .error .frameHeader

/-- The bit of the flags byte that gates a micro-operation (rule R82); 0 for the four that always run. -/
def UpdLane.mask : UpdLane → Byte
  | .vparam => 0x00
  | .v => 0x40
  | .iparam => 0x00
  | .i => 0x20
  | .pparam => 0x00
  | .p => 0x10
  | .pf => 0x00
  | .pfdata => 0x80

/-- The row of the operation table that a micro-operation is (rules R141 to R148). -/
def UpdLane.toInstr : UpdLane → Instr
  | .vparam => .updVparam
  | .v => .updV
  | .iparam => .updIparam
  | .i => .updI
  | .pparam => .updPparam
  | .p => .updP
  | .pf => .updPf
  | .pfdata => .updPfdata

/-- A micro-operation fires on a flags byte that has its gate bit set (rule R82). -/
def decodeFlags (lane : UpdLane) (flags : Byte) : Except DecodeError Instr :=
  if flags &&& lane.mask = lane.mask then .ok lane.toInstr else .error .gateClear

/-- The read operation that samples a port (rule R92). -/
def ReadPort.toInstr : ReadPort → Instr
  | .checksumValid => .chk
  | .vEff => .getV
  | .iEff => .getI
  | .pActive => .getP
  | .pApparent => .getS
  | .powerFactor => .getPf
  | .energyKwh => .getE

/-- The operation an encoded word stands for, or the name of the reason why it stands for none. -/
def decode : CodeWord → Except DecodeError Instr
  | .cmd3 cmd inData => .ok (decodeCommand cmd inData)
  | .push10 w => .ok (decodePush w)
  | .frame192 w => decodeFrame w
  | .flags8 lane flags => decodeFlags lane flags
  | .read port => .ok port.toInstr

/-- The operation that the host performs with what it presents. Total: no input is illegal (rule R94). -/
def decodeHost : HostWord → Instr
  | .command cmd inData => decodeCommand cmd inData
  | .sample port => port.toInstr
  | .frame f k => .frame f k

/-! ## The encoder -/

/-- A field of a frame, its least significant bit at bit `lo` of the 192. -/
def placeField {w : Nat} (lo : Nat) (x : BitVec w) : BitVec 192 := x.setWidth 192 <<< lo

/-- The 192 bits of a frame: every field at the bit positions of the table under rule R80. -/
def encodeFrame (f : FrameArgs) (k : Byte) : BitVec 192 :=
  placeField 184 stateMarker ||| placeField 176 checkMarker ||| placeField 152 f.vparam ||| placeField 128 f.v |||
    placeField 104 f.iparam ||| placeField 80 f.i ||| placeField 56 f.pparam ||| placeField 32 f.p |||
    placeField 24 f.flags ||| placeField 8 f.pf ||| placeField 0 k

/-- The word of an operation: the match value of its row of the operation table with its operands in their fields
and every don't-care bit 0. -/
def encode : Instr → CodeWord
  | .construct => .cmd3 0b100 0
  | .reset => .cmd3 0b010 0
  | .push b => .cmd3 0b001 b
  | .idle => .cmd3 0b000 0
  | .pushSync => .push10 0x055
  | .pushCheck => .push10 0x15A
  | .pushStore b => .push10 (0b10#2 ++ b)
  | .pushLast b => .push10 (0b11#2 ++ b)
  | .pushDrop b => .push10 (0b00#2 ++ b)
  | .frame f k => .frame192 (encodeFrame f k)
  | .updVparam => .flags8 .vparam 0x00
  | .updV => .flags8 .v 0x40
  | .updIparam => .flags8 .iparam 0x00
  | .updI => .flags8 .i 0x20
  | .updPparam => .flags8 .pparam 0x00
  | .updP => .flags8 .p 0x10
  | .updPf => .flags8 .pf 0x00
  | .updPfdata => .flags8 .pfdata 0x80
  | .chk => .read .checksumValid
  | .getV => .read .vEff
  | .getI => .read .iEff
  | .getP => .read .pActive
  | .getS => .read .pApparent
  | .getPf => .read .powerFactor
  | .getE => .read .energyKwh

/-! ## The table's numbering

The table gives a `cmd3` row 3 bits and a `flags8` row 8 bits, one byte each, and a `read` row none. So a word of
8 bits is a command word when bits 7 to 3 are 0, and a flags byte otherwise, and words that several rows share go
to the first of them that is left (assumption 6). -/

/-- The micro-operation that a flags byte names on its own: the first gated row of the table whose bit is set,
or the first of the ungated rows. -/
def laneOfFlags (flags : Byte) : UpdLane :=
  if flags &&& 0x40 = 0x40 then .v
  else if flags &&& 0x20 = 0x20 then .i
  else if flags &&& 0x10 = 0x10 then .p
  else if flags &&& 0x80 = 0x80 then .pfdata
  else .vparam

/-- The encoded word whose bits, numbered as spec/opcode_table.json numbers them, are `w`. -/
def tableWord (nbits w : Nat) : Option CodeWord :=
  if nbits = 0 then if w = 0 then some (.read .checksumValid) else none
  else if nbits = 8 then
    if w < 8 then some (.cmd3 (BitVec.ofNat 3 w) 0)
    else if w < 256 then some (.flags8 (laneOfFlags (BitVec.ofNat 8 w)) (BitVec.ofNat 8 w))
    else none
  else if nbits = 16 then if w < 1024 then some (.push10 (BitVec.ofNat 10 w)) else none
  else if nbits = 192 then if w < 2 ^ 192 then some (.frame192 (BitVec.ofNat 192 w)) else none
  else none

/-- The instruction that the decoder reads from a table word. -/
def decodeTableWord (nbits w : Nat) : Option Instr :=
  match tableWord nbits w with
  | some c =>
    match decode c with
    | .ok i => some i
    | .error _ => none
  | none => none

end Sys2Proof
end

