-- ==== Sys2Proof/Machine/Fetch.lean ====
section
/-! DEFINITION. Where the next operation comes from, and how a given word is put there. The block fetches nothing from a
memory (rule R74): its next operation is what the host presents. -/
namespace Sys2Proof.Machine

/-- The operation of the coming step, and the state it acts on: what the host presents is taken from the queue. Where the host
presents nothing, the operation is `IDLE` (rules R91, R112). -/
def State.fetch (s : State) : Instr × State :=
  match s.pending with
  | [] => (.idle, s)
  | w :: rest => (decodeHost w, { s with pending := rest })

/-- The host presents `w` before anything else it is to present. -/
def State.present (s : State) (w : HostWord) : State := { s with pending := w :: s.pending }

/-- A state of the class `sc` (rule R88): `s` itself if it is one, else `s` at the first position of that class. -/
def State.withClass (s : State) (sc : BitVec 2) : State :=
  if s.stateClass = sc then s
  else if sc = 0b01 then s.goto .headerMatched 1 s.acc
  else if sc = 0b10 then s.goto .accumulating 2 s.acc
  else if sc = 0b11 then s.goto .accumulating 23 s.acc
  else s.goto .searching 0 s.acc

/-- A decode word of `PUSH`: the state class goes into the sequencer, whose function it is, and the byte is pushed next. -/
def State.stagePush (s : State) (w : BitVec 10) : State :=
  (s.withClass (w.extractLsb' 8 2)).present (.command 0b001 (w.extractLsb' 0 8))

/-- The buffer with a sum that is not 0x55, which could not be pushed as a checksum byte: byte 2 is changed if need be. -/
def avoidMarkerSum (m : Memory) : Memory :=
  if cksum m = stateMarker then m.write 2 (m.read 2 + 1) else m

/-- A flags byte as the update sees it: the update runs only inside the `PUSH.LAST` of a checksum-valid frame (rule R140), so the
flags byte goes into byte 20 of a frame that lacks its checksum byte, and that byte is pushed next. -/
def State.stageFlags (s : State) (flags : Byte) : State :=
  let m := avoidMarkerSum (s.buf.write 20 flags)
  let s' := { s with buf := m }
  (s'.goto .accumulating 23 (cksum m)).present (.command 0b001 (cksum m))

/-- `s` with an encoded word where the next step finds its operation. -/
def State.stage (s : State) : CodeWord → State
  | .cmd3 cmd inData => s.present (.command cmd inData)
  | .push10 w => s.stagePush w
  | .frame192 w => s.present (.frame (frameFields w) (w.extractLsb' 0 8))
  | .flags8 _ flags => s.stageFlags flags
  | .read port => s.present (.sample port)

/-- `s` with a table word where the next step finds its operation; `s` itself if the word is none of the table's. -/
def State.stageTableWord (s : State) (nbits w : Nat) : State :=
  match tableWord nbits w with
  | some c => s.stage c
  | none => s

end Sys2Proof.Machine
end

