-- ==== Sys2Proof/Machine/Step.lean ====
section
/-! DEFINITION. One step: the block performs the operation that the host presents next, whole and alone
(rules R11, R70). -/
namespace Sys2Proof.Machine

/-- One step of the machine. A block with illegal parameters takes none (U4). -/
def step (s : State) : Host.Outcome State Fault Refusal :=
  if s.cfg.legal then exec s.fetch.1 s.fetch.2 else .refused .illegalParameters

/-- `s` with a word of the operation table where the next step finds its operation (assumption 6). -/
def State.withFetchWord (s : State) (nbits w : Nat) : State := s.stageTableWord nbits w

end Sys2Proof.Machine
end

