-- ==== Sys2Proof/Safety.lean ====
section
/-! DEFINITION. What claims are stated in: the invariants that hold between operations (10_state.md section 8), and the
vocabulary of frames. -/
namespace Sys2Proof

/-- How far a number of the format of magnitude `m` is from `n / d`, both in units of the format's smallest positive number and
scaled by `d`. -/
def roundingError (n d m : Nat) : Nat := ((n : Int) - (m * d : Nat)).natAbs

/-- `x` is the number `n / d`, in units of the format's smallest positive number and negated where `neg`, rounded once as rule R161 says.
An infinity stands for a number of at least half a unit beyond the largest finite one. A finite `x` is a number of the format, stands for
a smaller number, and no number of the format is nearer; where another is as near, the significand of `x` is even. NaN is the rounding of
no number. -/
def Fp.IsRounded (fmt : FpFmt) (neg : Bool) (n d : Nat) : Fp → Prop
  | .nan => False
  | .inf sign => sign = neg ∧ (2 ^ (fmt.precision + 1) - 1) * 2 ^ fmt.maxExp * d ≤ 2 * n
  | .fin sign sig exp =>
    sign = neg ∧ (Fp.fin sign sig exp).canonical fmt = true ∧
      2 * n < (2 ^ (fmt.precision + 1) - 1) * 2 ^ fmt.maxExp * d ∧
      ∀ sig' exp', (Fp.fin sign sig' exp').canonical fmt = true →
        roundingError n d (sig * 2 ^ exp) ≤ roundingError n d (sig' * 2 ^ exp') ∧
          (roundingError n d (sig * 2 ^ exp) = roundingError n d (sig' * 2 ^ exp') →
            sig' * 2 ^ exp' = sig * 2 ^ exp ∨ sig % 2 = 0)

end Sys2Proof

namespace Sys2Proof.Machine

/-- Rule R47 (a). -/
abbrev State.SearchingInv (s : State) : Prop := s.st = .searching → s.idx = 0 ∧ s.acc = 0

/-- Rule R47 (b). -/
abbrev State.HeaderInv (s : State) : Prop := s.st = .headerMatched → s.idx = 1 ∧ s.buf.read 0 = stateMarker

/-- Rule R47 (c). -/
abbrev State.AccumulatingInv (s : State) : Prop :=
  s.st = .accumulating →
    2 ≤ s.idx.toNat ∧ s.idx.toNat ≤ 23 ∧ s.buf.read 0 = stateMarker ∧ s.buf.read 1 = checkMarker ∧
      s.acc = sumBytes s.buf 2 (s.idx.toNat - 2) ∧
      ∀ k, k < s.idx.toNat → 2 ≤ k → s.buf.read k ≠ stateMarker

/-- Rule R47 (d). -/
abbrev State.CompleteInv (s : State) : Prop := s.fc = true → s.st = .searching

/-- The invariants of rule R47. -/
abbrev State.SequencerInv (s : State) : Prop :=
  s.SearchingInv ∧ s.HeaderInv ∧ s.AccumulatingInv ∧ s.CompleteInv

/-- What holds between operations: rule R47, the buffer's canonical form, the counter's width (rule R27), and legal
parameters (rule R8). -/
abbrev State.Inv (s : State) : Prop :=
  s.SequencerInv ∧ s.buf.wf = true ∧ s.reg.pfdata < 2 ^ s.cfg.pfdataW ∧ s.cfg.legal = true

/-- The block's own state: everything but the model's own fields (rule R12). -/
abbrev State.SameBlock (s t : State) : Prop :=
  t.st = s.st ∧ t.idx = s.idx ∧ t.acc = s.acc ∧ t.buf = s.buf ∧ t.fc = s.fc ∧ t.reg = s.reg

/-- The fields of the model's own: the parameters, what the host has yet to present, what it read last. -/
abbrev State.SameOutside (s t : State) : Prop :=
  t.cfg = s.cfg ∧ t.pending = s.pending ∧ t.sampled = s.sampled

/-- A well-formed frame (00_scope.md glossary): no byte after the state marker is 0x55. -/
abbrev WellFormedFrame (f : FrameArgs) (k : Byte) : Prop := ∀ b ∈ f.payload ++ [k], b ≠ stateMarker

/-- The measurement registers after one checksum-valid frame (rule R152), for a counter of `w` bits. -/
def Regs.afterFrame (r : Regs) (f : FrameArgs) (w : Nat) : Regs :=
  { vparam := f.vparam
    v := if f.flags.getLsbD 6 then f.v else r.v
    iparam := f.iparam
    i := if f.flags.getLsbD 5 then f.i else r.i
    pparam := f.pparam
    p := if f.flags.getLsbD 4 then f.p else r.p
    pf := f.pf
    pfdata := if f.flags.getLsbD 7 then (r.pfdata + 1) % 2 ^ w else r.pfdata }

/-- The host presents these bytes one at a time (rule R97: a two-digit token is a `PUSH`). -/
def pushesOf (bs : List Byte) : List HostWord := bs.map (HostWord.command 0b001)

/-- Operations performed one after another, stopping at the first fault or refusal. -/
def execAll : List Instr → State → Host.Outcome State Fault Refusal
  | [], s => .next s
  | i :: is, s =>
    match exec i s with
    | .next t => execAll is t
    | .fault r => .fault r
    | .refused r => .refused r

/-- The six quantities the ports show agree in two states. -/
abbrev State.SameQuantities (s t : State) : Prop :=
  t.outputs.vEff = s.outputs.vEff ∧ t.outputs.iEff = s.outputs.iEff ∧ t.outputs.pActive = s.outputs.pActive ∧
    t.outputs.pApparent = s.outputs.pApparent ∧ t.outputs.powerFactor = s.outputs.powerFactor ∧
    t.outputs.energyKwh = s.outputs.energyKwh

end Sys2Proof.Machine
end

