-- ==== Sys2Proof/Certificates/Slice0/Obligations.lean ====
section
/-! DEFINITION. The statements for the provers. Each says which rule of the spec it formalises. None rests on the value that the
model gives an open parameter: each holds for every choice of the block's parameters, or names the choice.

`SameOutside` in a conclusion says that the model's own fields stay: the parameters, the host's coming operations, the value read last. They
are the model's choice (log entries 2, 3, 4) and no rule's. -/

open Sys2Proof Sys2Proof.Machine

/-! ## Reset -/

/-- Rule R49: `RESET`, and `CONSTRUCT` of a legal block, complete from every state and leave every element at its reset value;
the coefficients are the same before and after. -/
def Obligations.ResetAndConstructReachTheResetState : Prop :=
  ∀ (i : Instr) (s : State), (i = .reset ∨ i = .construct ∧ s.cfg.legal = true) →
    ∃ t, exec i s = .next t ∧ t.st = .searching ∧ t.idx = 0 ∧ t.acc = 0 ∧ (∀ k, t.buf.read k = 0) ∧ t.fc = false ∧
      t.reg = { vparam := 0, v := 0, iparam := 0, i := 0, pparam := 0, p := 0, pf := 0, pfdata := 0 } ∧
      vc t.cfg = vc s.cfg ∧ cc t.cfg = cc s.cfg ∧ s.SameOutside t

/-- U4 and decision D15: a block whose parameters are not positive finite numbers is refused, by `CONSTRUCT` and by every step. That a
counter of no bits is refused with them is the model's choice (log entry 10). -/
def Obligations.IllegalParametersAreRefused : Prop :=
  ∀ s : State, s.cfg.legal = false →
    exec .construct s = .refused .illegalParameters ∧ step s = .refused .illegalParameters

/-- What the host sees after a reset (rules R180 and R221, which the spec derives): no frame complete, `checksum_valid` 1 from the
cleared buffer (log entry 13: the 1 means nothing), and every quantity "not a number", `pulse` among them, whatever the block's parameters
are. -/
def Obligations.AfterResetEveryQuantityIsNaN : Prop :=
  ∀ s : State, ∃ t, exec .reset s = .next t ∧ pulseCount t.cfg t.reg = .nan ∧
    t.outputs =
      { frameComplete := false, checksumValid := true, vEff := .nan, iEff := .nan, pActive := .nan, pApparent := .nan,
        powerFactor := .nan, energyKwh := .nan }

/-- Rule R75: nothing in the buffer, the sequencer or the registers survives a reset. Two states of one block that agree in what
is not the block's are the same state after it. -/
def Obligations.NothingSurvivesReset : Prop :=
  ∀ s s' : State, s.SameOutside s' → exec .reset s = exec .reset s'

/-! ## PUSH and its cases -/

/-- Rule R100: `PUSH b` completes from every state and performs exactly one of its cases, selected by testing in the order: 0x55;
0x5A in HeaderMatched; Accumulating with `idx` in 2 to 23, which splits at 22; everything else. The selection reads `b`, `st` and
`idx` and nothing else. What each case does is said by the statements that follow. -/
def Obligations.PushPerformsTheCaseTheOrderedTestsSelect : Prop :=
  (∀ (b : Byte) (s : State),
    (∃ t, exec (.push b) s = .next t) ∧
    (b = 0x55 → exec (.push b) s = .next s.pushSync) ∧
    (b ≠ 0x55 → s.st = .headerMatched → b = 0x5A → exec (.push b) s = .next s.pushCheck) ∧
    (b ≠ 0x55 → s.st = .accumulating → 2 ≤ s.idx.toNat → s.idx.toNat ≤ 22 →
      exec (.push b) s = .next (s.pushStore b)) ∧
    (b ≠ 0x55 → s.st = .accumulating → s.idx.toNat = 23 → exec (.push b) s = .next (s.pushLast b)) ∧
    (b ≠ 0x55 → ¬(s.st = .headerMatched ∧ b = 0x5A) →
      ¬(s.st = .accumulating ∧ 2 ≤ s.idx.toNat ∧ s.idx.toNat ≤ 23) →
      exec (.push b) s = .next s.pushDrop)) ∧
  ∀ (b : Byte) (s s' : State), s'.st = s.st → s'.idx = s.idx → s'.pushCase b = s.pushCase b

/-- Rules R87 and R88 (the spec derives R88): the decode table of `PUSH` as match and mask on the 10-bit decode word selects, in every
state and for every byte, the same operation as the ordered tests. -/
def Obligations.PushDecodeTableAgreesWithOrderedTests : Prop :=
  ∀ (s : State) (b : Byte), decodePush (s.decodeWord b) = (s.pushCase b).toInstr b

/-- Rule R101: in any state, 0x55 is written to `buf[0]`, the sequencer goes to HeaderMatched with `idx` 1, `fc` becomes 0, and nothing
else changes: not `acc`, not another byte of the buffer, not a register, not `checksum_valid`. -/
def Obligations.PushSyncRestartsTheHeader : Prop :=
  ∀ s : State, ∃ t, exec .pushSync s = .next t ∧ exec (.push 0x55) s = .next t ∧
    t.buf.read 0 = 0x55 ∧ (∀ a, a ≠ 0 → t.buf.read a = s.buf.read a) ∧ t.st = .headerMatched ∧ t.idx = 1 ∧
    t.fc = false ∧ t.acc = s.acc ∧ t.reg = s.reg ∧ t.checksumValid = s.checksumValid ∧ s.SameOutside t

/-- Rule R102: in HeaderMatched, 0x5A is written to `buf[1]`, the sequencer goes to Accumulating with `idx` 2, `acc` and `fc` become
0, and nothing else changes. -/
def Obligations.PushCheckBeginsThePayload : Prop :=
  ∀ s : State, s.st = .headerMatched →
    ∃ t, exec .pushCheck s = .next t ∧ exec (.push 0x5A) s = .next t ∧
      t.buf.read 1 = 0x5A ∧ (∀ a, a ≠ 1 → t.buf.read a = s.buf.read a) ∧ t.st = .accumulating ∧ t.idx = 2 ∧
      t.acc = 0 ∧ t.fc = false ∧ t.reg = s.reg ∧ t.checksumValid = s.checksumValid ∧ s.SameOutside t

/-- Rule R103: in Accumulating with `idx` in 2 to 22, a byte other than 0x55 is stored at `buf[idx]`, added into `acc` modulo 256,
`idx` advances by 1, `fc` becomes 0, and nothing else changes. -/
def Obligations.PushStoreStoresAndSums : Prop :=
  ∀ (b : Byte) (s : State), b ≠ 0x55 → s.st = .accumulating → 2 ≤ s.idx.toNat → s.idx.toNat ≤ 22 →
    ∃ t, exec (.pushStore b) s = .next t ∧ exec (.push b) s = .next t ∧
      t.buf.read s.idx.toNat = b ∧ (∀ a, a ≠ s.idx.toNat → t.buf.read a = s.buf.read a) ∧
      t.acc.toNat = (s.acc.toNat + b.toNat) % 256 ∧ t.idx.toNat = s.idx.toNat + 1 ∧ t.st = .accumulating ∧
      t.fc = false ∧ t.reg = s.reg ∧ s.SameOutside t

/-- Rule R104: in Accumulating with `idx` 23, a byte other than 0x55 is stored at `buf[23]`; the registers are updated, as
`UPDATE()` does it on the buffer with the byte in place, if and only if `acc` equals the byte; the sequencer returns to Searching
with `idx` and `acc` 0 and `fc` becomes 1 either way; nothing else changes; and where the sequencer's invariants held,
`checksum_valid` read afterwards is the outcome of the comparison. -/
def Obligations.PushLastComparesAndCompletes : Prop :=
  ∀ (b : Byte) (s : State), b ≠ 0x55 → s.st = .accumulating → s.idx.toNat = 23 →
    ∃ t, exec (.pushLast b) s = .next t ∧ exec (.push b) s = .next t ∧
      t.buf.read 23 = b ∧ (∀ a, a ≠ 23 → t.buf.read a = s.buf.read a) ∧
      (s.acc = b → t.reg = { s with buf := s.buf.write 23 b }.update.reg) ∧ (s.acc ≠ b → t.reg = s.reg) ∧
      t.st = .searching ∧ t.idx = 0 ∧ t.acc = 0 ∧ t.fc = true ∧ (s.SequencerInv → t.checksumValid = decide (s.acc = b)) ∧
      s.SameOutside t

/-- Rules R105 and R106 (the spec derives R106): in every remaining case the byte is discarded: the sequencer goes to Searching with `idx`
and `acc` 0, `fc` becomes 0, and nothing else changes. The state tuples that no run reaches are among these cases: that the model has
them as states is its choice (log entry 15). -/
def Obligations.PushDropDiscardsTheByte : Prop :=
  ∀ (b : Byte) (s : State), b ≠ 0x55 → ¬(s.st = .headerMatched ∧ b = 0x5A) →
    ¬(s.st = .accumulating ∧ 2 ≤ s.idx.toNat ∧ s.idx.toNat ≤ 23) →
    ∃ t, exec (.pushDrop b) s = .next t ∧ exec (.push b) s = .next t ∧
      t.st = .searching ∧ t.idx = 0 ∧ t.acc = 0 ∧ t.fc = false ∧ (∀ a, t.buf.read a = s.buf.read a) ∧ t.reg = s.reg ∧
      t.checksumValid = s.checksumValid ∧ s.SameOutside t

/-- Rule R209 (which the spec derives): any number of consecutive discarded bytes leave the same state as one, and any run of 0x55 is
one 0x55. -/
def Obligations.ResynchronisationsNestTrivially : Prop :=
  ∀ (s : State) (n : Nat) (bs : List Byte),
    (s.st = .searching → (∀ b ∈ bs, b ≠ 0x55) → bs ≠ [] → s.pushAll bs = s.push 0) ∧
    s.pushAll (List.replicate (n + 1) 0x55) = s.push 0x55

/-- Rule R112: with no byte pushed and no reset applied no state changes, for any length of time: `IDLE` changes nothing, and a block
to which the host presents nothing is the same after any number of steps. -/
def Obligations.IdleChangesNothing : Prop :=
  ∀ s : State, exec .idle s = .next s ∧
    (s.cfg.legal = true → s.pending = [] → ∀ n, Host.Core.run Sys2Proof.core n s = .next s)

/-! ## Whole frames -/

/-- Rule R97: the pseudo-operation `FRAME` completes from every state, and its effect is that of its 24 pushes, presented one to a
step; `FRAME` carries the checksum of rule R84 and `FRAME!` the same with bit 0 inverted. -/
def Obligations.FrameIsItsTwentyFourPushes : Prop :=
  ∀ (f : FrameArgs) (k : Byte) (s : State) (rest : List HostWord), s.cfg.legal = true →
    (f.bytes k).length = 24 ∧
    ∃ t, exec (.frame f k) { s with pending := rest } = .next t ∧
      Host.Core.run Sys2Proof.core 24 { s with pending := pushesOf (f.bytes k) ++ rest } = .next t ∧
      step { s with pending := .frame f k :: rest } = .next t

/-- Rules R108 and R111 (which the spec derives) with R152: whatever came before, a well-formed checksum-valid frame pushed whole is
reported complete on its 24th byte and on no earlier one, `checksum_valid` is then 1, the buffer holds the frame, and the registers
are loaded as the flags byte says. -/
def Obligations.WellFormedValidFrameAlwaysDecodes : Prop :=
  ∀ (f : FrameArgs) (s : State), WellFormedFrame f f.cksum →
    ∃ t, exec (.frame f f.cksum) s = .next t ∧ t.fc = true ∧ t.checksumValid = true ∧
      t.st = .searching ∧ t.idx = 0 ∧ t.acc = 0 ∧ t.reg = s.reg.afterFrame f s.cfg.pfdataW ∧
      (∀ a, a < 24 → (f.bytes f.cksum)[a]? = some (t.buf.read a)) ∧ (∀ a, 24 ≤ a → t.buf.read a = s.buf.read a) ∧
      s.SameOutside t ∧
      ∀ n, 0 < n → n < 24 → (s.pushAll ((f.bytes f.cksum).take n)).fc = false

/-- Rule R203: on a checksum failure the frame is still reported complete, its fields are not propagated, and `checksum_valid` is 0:
all registers and all six quantities are as before. -/
def Obligations.ChecksumFailureCompletesWithoutUpdate : Prop :=
  ∀ (f : FrameArgs) (k : Byte) (s : State), WellFormedFrame f k → k ≠ f.cksum →
    ∃ t, exec (.frame f k) s = .next t ∧ t.fc = true ∧ t.checksumValid = false ∧ t.st = .searching ∧ t.reg = s.reg ∧
      s.SameQuantities t ∧ s.SameOutside t

/-- Rule R109 (which the spec derives): a frame with the value 0x55 among bytes 2 to 23 is never reported complete and never updates a
register, whatever state it is pushed in. -/
def Obligations.FrameWithMarkerInPayloadIsLost : Prop :=
  ∀ (f : FrameArgs) (k : Byte) (s : State), ¬WellFormedFrame f k →
    ∀ n, 0 < n → n ≤ 24 →
      (s.pushAll ((f.bytes k).take n)).fc = false ∧ (s.pushAll ((f.bytes k).take n)).reg = s.reg

/-- Rule R107: a `PUSH` returns true if and only if it was `PUSH.LAST`; and, counting from Searching, that is if and only if the last
24 pushes were `55 5A` followed by 22 bytes none of which is 0x55. -/
def Obligations.FrameCompleteExactlyAfterTwentyFourBytes : Prop :=
  (∀ (s : State) (b : Byte), (s.push b).fc = true ↔ s.pushCase b = .last) ∧
  ∀ (s : State) (bs : List Byte), s.st = .searching → bs ≠ [] →
    ((s.pushAll bs).fc = true ↔
      ∃ before body, bs = before ++ 0x55 :: 0x5A :: body ∧ body.length = 22 ∧ ∀ b ∈ body, b ≠ 0x55)

/-! ## Invariants and whole-machine rules -/

/-- The reset state of every legal block, and the model's own reset state, have the invariants. -/
def Obligations.ResetStateHasTheInvariants : Prop :=
  (∀ c : Config, c.legal = true → (State.resetOf c).Inv) ∧ State.reset.Inv

/-- Rule R47 (which the spec derives) as an inductive invariant, with the buffer's canonical form, the counter's width (rule R27) and
legal parameters: every step keeps it, whatever the host presents. -/
def Obligations.EveryStepKeepsTheInvariants : Prop :=
  ∀ s t : State, s.Inv → step s = .next t → t.Inv

/-- Rule R47 (which the spec derives): in every state reachable from reset by the operations of the spec, the sequencer's invariants
hold. -/
def Obligations.ReachableStatesHaveTheSequencerInvariants : Prop :=
  ∀ (c : Config) (ops : List HostWord) (n : Nat), c.legal = true →
    ∃ t, Host.Core.run Sys2Proof.core n { State.resetOf c with pending := ops } = .next t ∧ t.SequencerInv

/-- Rule R15: there are no faults and there is no stuck state: from every state every operation has a successor, and so does every
step of a legal block. -/
def Obligations.EveryOperationHasASuccessor : Prop :=
  ∀ s : State, s.cfg.legal = true → (∀ i, ∃ t, exec i s = .next t) ∧ ∃ t, step s = .next t

/-- Rules R7 and R12: the parameters, and with them the coefficients, never change: no operation and no step writes them. -/
def Obligations.CoefficientsNeverChange : Prop :=
  (∀ (i : Instr) (s t : State), exec i s = .next t → t.cfg = s.cfg ∧ vc t.cfg = vc s.cfg ∧ cc t.cfg = cc s.cfg) ∧
  ∀ s t : State, step s = .next t → t.cfg = s.cfg

/-- Rules R60 and R61 (which the spec derives): no operation writes outside the 24 bytes, and the buffer keeps its canonical form. -/
def Obligations.EveryOperationKeepsTheBufferCanonical : Prop :=
  ∀ (i : Instr) (s t : State), s.buf.wf = true → exec i s = .next t →
    t.buf.wf = true ∧ ∀ a, 24 ≤ a → t.buf.read a = 0

/-- Rule R23, with R176: the measurement registers, and so the six quantities, change only at a checksum-valid `PUSH.LAST` (alone or
within a `FRAME`) or at one of the two resets. -/
def Obligations.RegistersChangeOnlyByValidFrameOrReset : Prop :=
  ∀ (w : HostWord) (rest : List HostWord) (s t : State),
    step { s with pending := w :: rest } = .next t → (t.reg ≠ s.reg ∨ ¬s.SameQuantities t) →
    decodeHost w = .construct ∨ decodeHost w = .reset ∨
    (decodeHost w = .push s.acc ∧ s.acc ≠ 0x55 ∧ s.st = .accumulating ∧ s.idx.toNat = 23) ∨
    ∃ f, w = .frame f f.cksum ∧ WellFormedFrame f f.cksum

/-! ## The validator -/

/-- Rules R130 and R133: `CHK` completes from every state and returns whether the unsigned sum of bytes 2 to 22, modulo 256, equals
byte 23; it changes nothing but what the host has read. -/
def Obligations.ChkReturnsTheAdditiveChecksumTest : Prop :=
  ∀ s : State,
    exec .chk s =
      .next { s with sampled := some (.flag (decide
        (((List.range 21).map fun k => (s.buf.read (k + 2)).toNat).sum % 256 = (s.buf.read 23).toNat))) }

/-- Rule R48 (which the spec derives): at `PUSH.LAST`, from every state with the invariants, `acc` equals the sum that `CHK`
recomputes, so the internal comparison and `checksum_valid` read afterwards agree. -/
def Obligations.InternalCheckAgreesWithChk : Prop :=
  ∀ (b : Byte) (s t : State), s.Inv → b ≠ 0x55 → s.st = .accumulating → s.idx.toNat = 23 →
    exec (.pushLast b) s = .next t → s.acc = cksum t.buf ∧ t.checksumValid = decide (s.acc = b)

/-- Rules R134 (which the spec derives), R66 and R149: the verdict lasts through any `IDLE`, discarded byte, 0x55 and check marker
(R134), read (R66) and micro-operation of the update (R149): none of them changes `checksum_valid`. That a micro-operation runs on its
own, in every state, is the model's choice (log entry 14). -/
def Obligations.VerdictLastsUntilTheNextPayloadByte : Prop :=
  ∀ (i : Instr) (s t : State), exec i s = .next t →
    (i = .idle ∨ i = .pushSync ∨ (i = .pushCheck ∧ s.st = .headerMatched) ∨ (∃ b, i = .push b ∧ s.st ≠ .accumulating) ∨
      (∃ port, i = ReadPort.toInstr port) ∨ ∃ lane, i = UpdLane.toInstr lane) →
    t.checksumValid = s.checksumValid

/-- Rule R137 (which the spec derives): the checksum detects every error in a single byte of bytes 2 to 23. -/
def Obligations.EverySingleByteErrorIsDetected : Prop :=
  ∀ (s s' : State) (k : Nat), 2 ≤ k → k ≤ 23 → s'.buf.read k ≠ s.buf.read k →
    (∀ a, a ≠ k → s'.buf.read a = s.buf.read a) → s.checksumValid = true → s'.checksumValid = false

/-! ## The update -/

/-- Rules R63 and R83: a 24-bit field is `buf[a] * 65536 + buf[a+1] * 256 + buf[a+2]` and the 16-bit field `buf[21] * 256 + buf[22]`,
unsigned, with no bit lost. -/
def Obligations.FieldsAreBigEndian : Prop :=
  ∀ (m : Memory) (a : Nat),
    memRead m a 3 = (m.read a).toNat * 65536 + (m.read (a + 1)).toNat * 256 + (m.read (a + 2)).toNat ∧
    (field24 m a).toNat = memRead m a 3 ∧
    memRead m a 2 = (m.read a).toNat * 256 + (m.read (a + 1)).toNat ∧ (field16 m a).toNat = memRead m a 2

/-- Rules R141, R142, R143, R147: the four unconditional loads complete from every state, each loads its field into its own register,
and nothing else changes. That a micro-operation runs on its own, in every state, is the model's choice (log entry 14). -/
def Obligations.UngatedLoadsAlwaysOverwrite : Prop :=
  ∀ s : State,
    (∃ t, exec .updVparam s = .next t ∧ t.reg.vparam.toNat = memRead s.buf 2 3 ∧
      t = { s with reg := { s.reg with vparam := t.reg.vparam } }) ∧
    (∃ t, exec .updIparam s = .next t ∧ t.reg.iparam.toNat = memRead s.buf 8 3 ∧
      t = { s with reg := { s.reg with iparam := t.reg.iparam } }) ∧
    (∃ t, exec .updPparam s = .next t ∧ t.reg.pparam.toNat = memRead s.buf 14 3 ∧
      t = { s with reg := { s.reg with pparam := t.reg.pparam } }) ∧
    ∃ t, exec .updPf s = .next t ∧ t.reg.pf.toNat = memRead s.buf 21 2 ∧
      t = { s with reg := { s.reg with pf := t.reg.pf } }

/-- Rules R144, R145, R146: the three gated loads complete from every state; with their bit of `buf[20]` set (6, 5, 4) each loads its field
into its own register, with it clear the register keeps its value; and nothing else changes. That a micro-operation runs on its own, in
every state, is the model's choice (log entry 14). -/
def Obligations.GatedLoadsFollowTheirFlag : Prop :=
  ∀ s : State,
    (∃ t, exec .updV s = .next t ∧
      ((s.buf.read 20).getLsbD 6 = true → t.reg.v.toNat = memRead s.buf 5 3) ∧
      ((s.buf.read 20).getLsbD 6 = false → t.reg.v = s.reg.v) ∧ t = { s with reg := { s.reg with v := t.reg.v } }) ∧
    (∃ t, exec .updI s = .next t ∧
      ((s.buf.read 20).getLsbD 5 = true → t.reg.i.toNat = memRead s.buf 11 3) ∧
      ((s.buf.read 20).getLsbD 5 = false → t.reg.i = s.reg.i) ∧ t = { s with reg := { s.reg with i := t.reg.i } }) ∧
    ∃ t, exec .updP s = .next t ∧
      ((s.buf.read 20).getLsbD 4 = true → t.reg.p.toNat = memRead s.buf 17 3) ∧
      ((s.buf.read 20).getLsbD 4 = false → t.reg.p = s.reg.p) ∧ t = { s with reg := { s.reg with p := t.reg.p } }

/-- Rules R148 and R27: the overflow count completes from every state; with bit 7 of `buf[20]` set it adds 1 modulo `2 ^ PFDATA_W`, which is
exactly 1 more below the last value, with it clear it keeps its value; it stays within its width; and nothing else changes. That a
micro-operation runs on its own, in every state, is the model's choice (log entry 14). -/
def Obligations.OverflowCountAddsOnePerFlaggedUpdate : Prop :=
  ∀ s : State, ∃ t, exec .updPfdata s = .next t ∧
    ((s.buf.read 20).getLsbD 7 = true → t.reg.pfdata = (s.reg.pfdata + 1) % 2 ^ s.cfg.pfdataW) ∧
    ((s.buf.read 20).getLsbD 7 = true → s.reg.pfdata < 2 ^ s.cfg.pfdataW - 1 → t.reg.pfdata = s.reg.pfdata + 1) ∧
    ((s.buf.read 20).getLsbD 7 = false → t.reg.pfdata = s.reg.pfdata) ∧
    (s.reg.pfdata < 2 ^ s.cfg.pfdataW → t.reg.pfdata < 2 ^ s.cfg.pfdataW) ∧
    t = { s with reg := { s.reg with pfdata := t.reg.pfdata } }

/-- Rule R140: the order of the eight micro-operations does not matter: performed one after another in any order they do what
`UPDATE()` does at once. That they run on their own is the model's choice (log entry 14). -/
def Obligations.UpdateOrderDoesNotMatter : Prop :=
  ∀ (s : State) (lanes : List UpdLane),
    lanes.Perm [.vparam, .v, .iparam, .i, .pparam, .p, .pf, .pfdata] →
    execAll (lanes.map UpdLane.toInstr) s = .next s.update

/-- Rule R93: flags bits 3 to 0 have no effect on the update: two flags bytes with the same upper four bits give the same
registers. -/
def Obligations.LowFlagBitsHaveNoEffect : Prop :=
  ∀ (s : State) (x y : Byte), x >>> 4 = y >>> 4 →
    { s with buf := s.buf.write 20 x }.update.reg = { s with buf := s.buf.write 20 y }.update.reg

/-! ## Encodings -/

/-- Decode and encode agree: for every well-formed operation, the word that encodes it decodes to it, with every operand at every
value. -/
def Obligations.DecodeOfEncodeIsTheOperation : Prop :=
  ∀ i : Instr, WellFormed i → decode (encode i) = .ok i

/-- Rules R86 and R94: every 10-bit decode word selects exactly one well-formed case of `PUSH`, and that case carries the pushed
byte. -/
def Obligations.EveryPushWordDecodesToAWellFormedCase : Prop :=
  ∀ (sc : BitVec 2) (b : Byte), WellFormed (decodePush (sc ++ b)) ∧
    ∃ c : PushCase, decodePush (sc ++ b) = c.toInstr b ∧ (c = .sync ↔ b = 0x55) ∧ (c = .check ↔ sc = 0b01 ∧ b = 0x5A)

/-- Rule R91: one command operation a step, chosen by `rst`, then `soft_reset`, then `in_valid`; the byte beside either reset, or beside
no valid bit, is lost. -/
def Obligations.CommandPriorityIsResetThenSoftResetThenPush : Prop :=
  ∀ (s : State) (cmd : BitVec 3) (d : Byte) (rest : List HostWord), s.cfg.legal = true →
    (cmd.getLsbD 2 = true →
      step { s with pending := .command cmd d :: rest } = exec .construct { s with pending := rest }) ∧
    (cmd.getLsbD 2 = false → cmd.getLsbD 1 = true →
      step { s with pending := .command cmd d :: rest } = exec .reset { s with pending := rest }) ∧
    (cmd.getLsbD 2 = false → cmd.getLsbD 1 = false → cmd.getLsbD 0 = true →
      step { s with pending := .command cmd d :: rest } = exec (.push d) { s with pending := rest }) ∧
    (cmd.getLsbD 2 = false → cmd.getLsbD 1 = false → cmd.getLsbD 0 = false →
      step { s with pending := .command cmd d :: rest } = exec .idle { s with pending := rest })

/-- Rule R80: a frame is 24 bytes, each the byte of the layout; and its 192-bit form is those bytes, bit 191 first: byte `j` is bits
`191 - 8 j` down to `184 - 8 j`. -/
def Obligations.FrameWordIsItsBytesInArrivalOrder : Prop :=
  ∀ (f : FrameArgs) (k : Byte),
    f.bytes k =
      [0x55, 0x5A,
       f.vparam.extractLsb' 16 8, f.vparam.extractLsb' 8 8, f.vparam.extractLsb' 0 8,
       f.v.extractLsb' 16 8, f.v.extractLsb' 8 8, f.v.extractLsb' 0 8,
       f.iparam.extractLsb' 16 8, f.iparam.extractLsb' 8 8, f.iparam.extractLsb' 0 8,
       f.i.extractLsb' 16 8, f.i.extractLsb' 8 8, f.i.extractLsb' 0 8,
       f.pparam.extractLsb' 16 8, f.pparam.extractLsb' 8 8, f.pparam.extractLsb' 0 8,
       f.p.extractLsb' 16 8, f.p.extractLsb' 8 8, f.p.extractLsb' 0 8,
       f.flags, f.pf.extractLsb' 8 8, f.pf.extractLsb' 0 8, k] ∧
    ∀ j : Nat, j < 24 → (f.bytes k)[j]? = some ((encodeFrame f k).extractLsb' (184 - 8 * j) 8)

/-- Words written out from the spec's encodings decode to what they stand for: the command words of rule R91, decode words of rule R88, the
frame of rule R85, a flags byte of rule R82. -/
def Obligations.WordsOfTheSpecDecode : Prop :=
  decode (.cmd3 0b101 0x00) = .ok .construct ∧ decode (.cmd3 0b011 0x55) = .ok .reset ∧
  decode (.cmd3 0b001 0xEB) = .ok (.push 0xEB) ∧ decode (.cmd3 0b000 0xFF) = .ok .idle ∧
  decode (.push10 0b1101010101) = .ok .pushSync ∧ decode (.push10 0b0101011010) = .ok .pushCheck ∧
  decode (.push10 0b1001011010) = .ok (.pushStore 0x5A) ∧ decode (.push10 0b1100011101) = .ok (.pushLast 0x1D) ∧
  decode (.push10 0b0001011010) = .ok (.pushDrop 0x5A) ∧
  decode (.frame192 0x555A02EBA8000DAC003EE400DB2B5111E819BD297100ED1D) =
    .ok (.frame { vparam := 191400, v := 3500, iparam := 16100, i := 56107, pparam := 5313000, p := 1686825,
                  flags := 0x71, pf := 237 } 0x1D) ∧
  decode (.flags8 .v 0x71) = .ok .updV ∧ decode (.flags8 .pfdata 0x71) = .error .gateClear ∧
  decode (.read .energyKwh) = .ok .getE

/-- A step runs the decoded operation: where the host presents a word, the step is that word's operation in the state without the word; where
it presents nothing, the step is `IDLE`. -/
def Obligations.StepRunsTheDecodedOperation : Prop :=
  ∀ s : State, s.cfg.legal = true →
    (s.pending = [] → step s = exec .idle s) ∧
    ∀ w rest, step { s with pending := w :: rest } = exec (decodeHost w) { s with pending := rest }

/-! ## The calculator -/

/-- Rule R170: `GET.V` completes from every state and returns `fmul(fdiv(fcvt(vparam), fcvt(v)), vc)`, with the corner cases of a zero
register where the coefficient is a positive finite number (rule R165 gives it for the default parameters). -/
def Obligations.GetVReturnsEffectiveVoltage : Prop :=
  ∀ s : State, ∃ x, exec .getV s = .next { s with sampled := some (.quantity x) } ∧
    x = fmul s.cfg.fmt (fdiv s.cfg.fmt (fcvt s.cfg.fmt s.reg.vparam.toNat) (fcvt s.cfg.fmt s.reg.v.toNat)) (vc s.cfg) ∧
    (s.reg.v = 0 → s.reg.vparam = 0 → x = .nan) ∧
    ((vc s.cfg).isPositiveFinite = true → s.reg.v = 0 → s.reg.vparam ≠ 0 → x = .inf false) ∧
    ((vc s.cfg).isPositiveFinite = true → s.reg.v ≠ 0 → s.reg.vparam = 0 → x = Fp.zero false)

/-- Rule R171: `GET.I`, likewise, with the current's registers and coefficient. -/
def Obligations.GetIReturnsEffectiveCurrent : Prop :=
  ∀ s : State, ∃ x, exec .getI s = .next { s with sampled := some (.quantity x) } ∧
    x = fmul s.cfg.fmt (fdiv s.cfg.fmt (fcvt s.cfg.fmt s.reg.iparam.toNat) (fcvt s.cfg.fmt s.reg.i.toNat)) (cc s.cfg) ∧
    (s.reg.i = 0 → s.reg.iparam = 0 → x = .nan) ∧
    ((cc s.cfg).isPositiveFinite = true → s.reg.i = 0 → s.reg.iparam ≠ 0 → x = .inf false) ∧
    ((cc s.cfg).isPositiveFinite = true → s.reg.i ≠ 0 → s.reg.iparam = 0 → x = Fp.zero false)

/-- Rule R172: `GET.P` returns `fmul(fmul(fdiv(fcvt(pparam), fcvt(p)), vc), cc)`, with the corner cases, and depends on no other register. -/
def Obligations.GetPReturnsActivePower : Prop :=
  (∀ s : State, ∃ x, exec .getP s = .next { s with sampled := some (.quantity x) } ∧
    x = fmul s.cfg.fmt
      (fmul s.cfg.fmt (fdiv s.cfg.fmt (fcvt s.cfg.fmt s.reg.pparam.toNat) (fcvt s.cfg.fmt s.reg.p.toNat)) (vc s.cfg))
      (cc s.cfg) ∧
    (s.reg.p = 0 → s.reg.pparam = 0 → x = .nan) ∧
    ((vc s.cfg).isPositiveFinite = true → (cc s.cfg).isPositiveFinite = true →
      (s.reg.p = 0 → s.reg.pparam ≠ 0 → x = .inf false) ∧
      (s.reg.p ≠ 0 → s.reg.pparam = 0 → x = Fp.zero false))) ∧
  ∀ s s' : State, s'.cfg = s.cfg → s'.reg.pparam = s.reg.pparam → s'.reg.p = s.reg.p →
    activePower s'.cfg s'.reg = activePower s.cfg s.reg

/-- Rule R173: `GET.S` returns the product of the two rounded results, with the corner cases. -/
def Obligations.GetSReturnsApparentPower : Prop :=
  ∀ s : State, ∃ x y z, exec .getS s = .next { s with sampled := some (.quantity z) } ∧
    exec .getV s = .next { s with sampled := some (.quantity x) } ∧
    exec .getI s = .next { s with sampled := some (.quantity y) } ∧ z = fmul s.cfg.fmt x y ∧
    (x = .nan ∨ y = .nan → z = .nan) ∧
    (x = .inf false ∧ y = Fp.zero false ∨ x = Fp.zero false ∧ y = .inf false → z = .nan) ∧
    (x = .inf false ∧ y.isPositive = true ∨ x.isPositive = true ∧ y = .inf false → z = .inf false) ∧
    (x = Fp.zero false ∧ y.isFiniteNonneg = true ∨ x.isFiniteNonneg = true ∧ y = Fp.zero false → z = Fp.zero false)

/-- Rule R174: `GET.PF` returns `fdiv(GET.P, GET.S)`, with the corner cases. -/
def Obligations.GetPfReturnsPowerFactor : Prop :=
  ∀ s : State, ∃ x y z, exec .getPf s = .next { s with sampled := some (.quantity z) } ∧
    exec .getP s = .next { s with sampled := some (.quantity x) } ∧
    exec .getS s = .next { s with sampled := some (.quantity y) } ∧ z = fdiv s.cfg.fmt x y ∧
    (x = .nan ∨ y = .nan → z = .nan) ∧
    (x = Fp.zero false ∧ y = Fp.zero false ∨ x = .inf false ∧ y = .inf false → z = .nan) ∧
    (y = Fp.zero false → x.isPositive = true → z = .inf false) ∧
    (y = .inf false → x.isFiniteNonneg = true → z = Fp.zero false)

/-- Rule R175: `GET.E` returns `fdiv(fcvt(N), pulse)` with `N = pfdata * 65536 + pf` exact and `pulse = fdiv(fdiv(K, fcvt(pparam)), GET.S)`,
and the rule's table of corner cases, for a converted `N` that is finite. -/
def Obligations.GetEReturnsAccumulatedEnergy : Prop :=
  ∀ s : State, ∃ y pulse z, exec .getE s = .next { s with sampled := some (.quantity z) } ∧
    exec .getS s = .next { s with sampled := some (.quantity y) } ∧
    pulse = fdiv s.cfg.fmt (fdiv s.cfg.fmt (fcvt s.cfg.fmt 36000000000000) (fcvt s.cfg.fmt s.reg.pparam.toNat)) y ∧
    z = fdiv s.cfg.fmt (fcvt s.cfg.fmt (s.reg.pfdata * 65536 + s.reg.pf.toNat)) pulse ∧
    (y = .nan → pulse = .nan ∧ z = .nan) ∧
    (s.reg.pparam = 0 → y = .inf false → pulse = .nan ∧ z = .nan) ∧
    ((fcvt s.cfg.fmt (s.reg.pfdata * 65536 + s.reg.pf.toNat)).isFiniteNonneg = true →
      (s.reg.pparam ≠ 0 → y = Fp.zero false → pulse = .inf false ∧ z = Fp.zero false) ∧
      (s.reg.pparam ≠ 0 → y = .inf false → pulse = Fp.zero false ∧
        (s.reg.pfdata * 65536 + s.reg.pf.toNat ≠ 0 → z = .inf false) ∧
        (s.reg.pfdata * 65536 + s.reg.pf.toNat = 0 → z = .nan)) ∧
      (s.reg.pparam = 0 → y.isFiniteNonneg = true → pulse = .inf false ∧ z = Fp.zero false))

/-- Rules R66 and R176: a read changes nothing in the block, and reading twice with no operation between returns the same value. -/
def Obligations.ReadsAreRepeatableAndChangeNothing : Prop :=
  ∀ (port : ReadPort) (s t : State), exec port.toInstr s = .next t →
    s.SameBlock t ∧ t.cfg = s.cfg ∧ t.pending = s.pending ∧ exec port.toInstr t = .next t

/-- The table of special operands under rule R161, for the operands that are not negative. -/
def Obligations.SpecialOperandsFollowTheTable : Prop :=
  ∀ (fmt : FpFmt) (x : Fp),
    fdiv fmt (Fp.zero false) (Fp.zero false) = .nan ∧
    (x.isPositiveFinite = true → fdiv fmt x (Fp.zero false) = .inf false) ∧
    (x.isPositiveFinite = true → fdiv fmt (Fp.zero false) x = Fp.zero false) ∧
    (x.isFiniteNonneg = true → fdiv fmt (.inf false) x = .inf false) ∧
    (x.isFiniteNonneg = true → fdiv fmt x (.inf false) = Fp.zero false) ∧
    fdiv fmt (.inf false) (.inf false) = .nan ∧
    fmul fmt (Fp.zero false) (.inf false) = .nan ∧ fmul fmt (.inf false) (Fp.zero false) = .nan ∧
    (x.isPositive = true → fmul fmt (.inf false) x = .inf false) ∧
    (x.isFiniteNonneg = true → fmul fmt (Fp.zero false) x = Fp.zero false) ∧
    fdiv fmt x .nan = .nan ∧ fdiv fmt .nan x = .nan ∧ fmul fmt x .nan = .nan ∧ fmul fmt .nan x = .nan

/-- The rounding of rules R161, R162 and R163: a quotient and a product of finite operands, and a converted integer, each is the exact number
rounded once: a number of the format wherever the exact one is in its range, nearest to it and with an even significand where another is
as near, and an infinity beyond. Everything is scaled to integers: `sig * 2 ^ exp` counts the format's smallest positive number, which is
`2 ^ -ulpScale`. -/
def Obligations.QuotientsAndProductsRoundToNearestEven : Prop :=
  (∀ (fmt : FpFmt) (a b : Bool) (sa ea sb eb : Nat),
    (0 < sb →
      (fdiv fmt (.fin a sa ea) (.fin b sb eb)).IsRounded fmt (a != b) (sa * 2 ^ ea * 2 ^ fmt.ulpScale) (sb * 2 ^ eb)) ∧
    (fmul fmt (.fin a sa ea) (.fin b sb eb)).IsRounded fmt (a != b) (sa * 2 ^ ea * (sb * 2 ^ eb)) (2 ^ fmt.ulpScale)) ∧
  ∀ (fmt : FpFmt) (n : Nat), (fcvt fmt n).IsRounded fmt false (n * 2 ^ fmt.ulpScale) 1

/-- Rule R162: the conversion of every integer below 2^24, and so of every 24-bit register and of `pf`, is exact in both formats. -/
def Obligations.ConversionOfRegistersIsExact : Prop :=
  ∀ (fmt : FpFmt) (n : Nat), n < 2 ^ 24 →
    ∃ sig exp, fcvt fmt n = .fin false sig exp ∧ sig * 2 ^ exp = n * 2 ^ fmt.ulpScale

/-- Rules R164 and R166, and R165 (which the spec derives): for all legal parameters the coefficients are `fdiv(R1, fmul(1000, R2))` and
`fdiv(1, fmul(1000, RS))` of the parameters, each rounded once; in both formats `K` is 36,000,000,000,000 rounded once, which is also
`fmul(1e10, 3600)`; and the coefficients of the default parameters and `K` have the encodings the spec gives. -/
def Obligations.ConstantsHaveTheSpecsEncodings : Prop :=
  (∀ c : Config, c.legal = true →
    (∀ r ∈ [c.voltageR1, c.voltageR2, c.currentShuntR],
      (r.toFp c.fmt).IsRounded c.fmt false (r.num.natAbs * 2 ^ c.fmt.ulpScale) r.den) ∧
    vc c = fdiv c.fmt (c.voltageR1.toFp c.fmt) (fmul c.fmt (fcvt c.fmt 1000) (c.voltageR2.toFp c.fmt)) ∧
    cc c = fdiv c.fmt (fcvt c.fmt 1) (fmul c.fmt (fcvt c.fmt 1000) (c.currentShuntR.toFp c.fmt)) ∧
    (constK c).IsRounded c.fmt false (36000000000000 * 2 ^ c.fmt.ulpScale) 1 ∧
    constK c = fmul c.fmt (fcvt c.fmt 10000000000) (fcvt c.fmt 3600)) ∧
  Fp.bits .binary64 (vc (Config.withFormat .binary64)) = some 0x3FFE147AE147AE14 ∧
  Fp.bits .binary32 (vc (Config.withFormat .binary32)) = some 0x3FF0A3D7 ∧
  Fp.bits .binary64 (cc (Config.withFormat .binary64)) = some 0x3FF0000000000000 ∧
  Fp.bits .binary32 (cc (Config.withFormat .binary32)) = some 0x3F800000 ∧
  Fp.bits .binary64 (constK (Config.withFormat .binary64)) = some 0x42C05EF39B200000 ∧
  Fp.bits .binary32 (constK (Config.withFormat .binary32)) = some 0x5602F79D

/-- Rule R182 (which the spec derives): with legal parameters no quantity is negative: each is NaN, +Inf, +0 or a positive number. -/
def Obligations.NoQuantityIsNegative : Prop :=
  ∀ (c : Config) (r : Regs), c.legal = true →
    (effectiveVoltage c r).isNegative = false ∧ (effectiveCurrent c r).isNegative = false ∧
    (activePower c r).isNegative = false ∧ (apparentPower c r).isNegative = false ∧
    (powerFactor c r).isNegative = false ∧ (electricalQuantity c r).isNegative = false

/-- Rules R160 and R92: every quantity is a number of the format in its canonical form, and the interchange encoding tells any two of
them apart. -/
def Obligations.QuantitiesAreRepresentable : Prop :=
  (∀ (c : Config) (r : Regs),
    (effectiveVoltage c r).canonical c.fmt = true ∧ (effectiveCurrent c r).canonical c.fmt = true ∧
    (activePower c r).canonical c.fmt = true ∧ (apparentPower c r).canonical c.fmt = true ∧
    (powerFactor c r).canonical c.fmt = true ∧ (electricalQuantity c r).canonical c.fmt = true) ∧
  ∀ (fmt : FpFmt) (x y : Fp), x.canonical fmt = true → y.canonical fmt = true →
    Fp.encoding fmt x = Fp.encoding fmt y → x = y

/-- Rule R85, the source's example frame, with R108, R111 and R152 (which the spec derives): pushed in any state it completes, is valid, and
loads the values rule R85 gives; its flags byte has bit 7 clear, so the overflow count stays. -/
def Obligations.ExampleFrameLoadsTheGivenRegisters : Prop :=
  ∀ s : State,
    (s.pushAll [0x55, 0x5A, 0x02, 0xEB, 0xA8, 0x00, 0x0D, 0xAC, 0x00, 0x3E, 0xE4, 0x00, 0xDB, 0x2B, 0x51, 0x11, 0xE8, 0x19,
      0xBD, 0x29, 0x71, 0x00, 0xED, 0x1D]).fc = true ∧
    (s.pushAll [0x55, 0x5A, 0x02, 0xEB, 0xA8, 0x00, 0x0D, 0xAC, 0x00, 0x3E, 0xE4, 0x00, 0xDB, 0x2B, 0x51, 0x11, 0xE8, 0x19,
      0xBD, 0x29, 0x71, 0x00, 0xED, 0x1D]).checksumValid = true ∧
    (s.pushAll [0x55, 0x5A, 0x02, 0xEB, 0xA8, 0x00, 0x0D, 0xAC, 0x00, 0x3E, 0xE4, 0x00, 0xDB, 0x2B, 0x51, 0x11, 0xE8, 0x19,
      0xBD, 0x29, 0x71, 0x00, 0xED, 0x1D]).reg =
      { vparam := 191400, v := 3500, iparam := 16100, i := 56107, pparam := 5313000, p := 1686825, pf := 237,
        pfdata := s.reg.pfdata }

/-- The source's worked example X1: from the registers of the example frame with `pfdata` 0, the six quantities of a block with the default
parameters, in both formats, as the encodings of 95_test_vectors.md. -/
def Obligations.ExampleReadingsHaveTheGivenEncodings : Prop :=
  ∀ s : State,
    s.reg = { vparam := 191400, v := 3500, iparam := 16100, i := 56107, pparam := 5313000, p := 1686825, pf := 237,
              pfdata := 0 } →
    (s.cfg = Config.withFormat .binary64 →
      Fp.bits .binary64 s.outputs.vEff = some 0x4059B3C8FF1F4E1D ∧
      Fp.bits .binary64 s.outputs.iEff = some 0x3FD25D6ABC48E980 ∧
      Fp.bits .binary64 s.outputs.pActive = some 0x4017AF8F0D04E462 ∧
      Fp.bits .binary64 s.outputs.pApparent = some 0x403D805294D751DC ∧
      Fp.bits .binary64 s.outputs.powerFactor = some 0x3FC9B1238613391B ∧
      Fp.bits .binary64 s.outputs.energyKwh = some 0x3F50E7FD249BBC90) ∧
    (s.cfg = Config.withFormat .binary32 →
      Fp.bits .binary32 s.outputs.vEff = some 0x42CD9E48 ∧
      Fp.bits .binary32 s.outputs.iEff = some 0x3E92EB56 ∧
      Fp.bits .binary32 s.outputs.pActive = some 0x40BD7C78 ∧
      Fp.bits .binary32 s.outputs.pApparent = some 0x41EC0295 ∧
      Fp.bits .binary32 s.outputs.powerFactor = some 0x3E4D891B ∧
      Fp.bits .binary32 s.outputs.energyKwh = some 0x3A873FE9)
end

