-- ==== Sys2Proof/Laws/Encoding.lean ====
section
/-! SUPPORT. The laws of the frame's bit fields: a field placed at its position is read back there, and reads as 0 at the position
of any other field. -/
namespace Sys2Proof

theorem placeField_getLsbD {w lo : Nat} (x : BitVec w) (i : Nat) (h : w + lo ≤ 192) :
    (placeField lo x).getLsbD i = (decide (lo ≤ i) && x.getLsbD (i - lo)) := by
  simp only [placeField, BitVec.getLsbD_shiftLeft, BitVec.getLsbD_setWidth]
  by_cases hi : lo ≤ i
  · by_cases h2 : i - lo < w
    · have : i < 192 := by omega
      have : i - lo < 192 := by omega
      simp [*]
    · have : x.getLsbD (i - lo) = false := BitVec.getLsbD_of_ge _ _ (by omega)
      simp [*]
  · simp [hi]

/-- A field is read back at its position. -/
theorem placeField_extract_same {w lo : Nat} (x : BitVec w) (h : w + lo ≤ 192) :
    (placeField lo x).extractLsb' lo w = x := by
  apply BitVec.eq_of_getLsbD_eq
  intro i hi
  simp [placeField_getLsbD x _ h, hi]

/-- A field reads as 0 above its position. -/
theorem placeField_extract_above {w lo lo' n : Nat} (x : BitVec w) (h : w + lo ≤ 192) (hl : lo + w ≤ lo') :
    (placeField lo x).extractLsb' lo' n = 0#n := by
  apply BitVec.eq_of_getLsbD_eq
  intro i hi
  have : x.getLsbD (lo' + i - lo) = false := BitVec.getLsbD_of_ge _ _ (by omega)
  simp [BitVec.getLsbD_extractLsb', placeField_getLsbD x _ h, this]

/-- A field reads as 0 below its position. -/
theorem placeField_extract_below {w lo lo' n : Nat} (x : BitVec w) (h : w + lo ≤ 192) (hl : lo' + n ≤ lo) :
    (placeField lo x).extractLsb' lo' n = 0#n := by
  apply BitVec.eq_of_getLsbD_eq
  intro i hi
  have : ¬lo ≤ lo' + i := by omega
  simp [BitVec.getLsbD_extractLsb', placeField_getLsbD x _ h, this]

theorem extract_or {n : Nat} (x y : BitVec 192) (lo : Nat) :
    (x ||| y).extractLsb' lo n = x.extractLsb' lo n ||| y.extractLsb' lo n := by
  apply BitVec.eq_of_getLsbD_eq
  intro i hi
  simp [hi]

/-- The top 16 bits of a frame are the two markers. -/
theorem encodeFrame_header (f : FrameArgs) (k : Byte) : (encodeFrame f k).extractLsb' 176 16 = 0x555A := by
  simp only [encodeFrame, extract_or]
  simp +decide only [placeField_extract_above, BitVec.or_zero]

/-- A word whose top 16 bits are the two markers matches the table's `FRAME` row. -/
theorem frame_row_of_header {w : BitVec 192} (h : w.extractLsb' 176 16 = 0x555A) :
    w &&& 0xFFFF00000000000000000000000000000000000000000000 =
      0x555A00000000000000000000000000000000000000000000 := by
  have hmask : (0xFFFF00000000000000000000000000000000000000000000 : BitVec 192) = 0xFFFF#16 ++ 0#176 := by decide
  have hpattern : (0x555A00000000000000000000000000000000000000000000 : BitVec 192) = 0x555A#16 ++ 0#176 := by decide
  have hw : w = w.extractLsb' 176 16 ++ w.extractLsb' 0 176 := by
    apply BitVec.eq_of_getLsbD_eq
    intro i hi
    rw [BitVec.getLsbD_append]
    split
    · simp [*]
    · have : i - 176 < 16 := by omega
      simp [this, show 176 + (i - 176) = i by omega]
  rw [hmask, hpattern, hw, h, BitVec.and_append]
  simp

/-- The decode word of `PUSH` split into its state class and its byte (rule R88). -/
theorem decodePush_append (sc : BitVec 2) (b : Byte) :
    decodePush (sc ++ b) =
      if b = stateMarker then .pushSync
      else if sc = 0b01 ∧ b = checkMarker then .pushCheck
      else if sc = 0b10 then .pushStore b
      else if sc = 0b11 then .pushLast b
      else .pushDrop b := by
  revert sc b
  decide +kernel

end Sys2Proof
end

