-- ==== Sys2Proof/Laws/Memory.lean ====
section
/-! SUPPORT. The laws of the buffer: a read after a write, the canonical form and its preservation, equal buffers are equal
data, and the big-endian read. -/
namespace Sys2Proof.Machine

@[simp] theorem Memory.read_nil (a : Nat) : Memory.read [] a = 0 := rfl

theorem Memory.read_cons (k : Nat) (x : Byte) (m : Memory) (a : Nat) :
    Memory.read ((k, x) :: m) a = if k = a then x else Memory.read m a := rfl

theorem Memory.read_erase (m : Memory) (a b : Nat) :
    Memory.read (Memory.erase m a) b = if b = a then 0 else Memory.read m b := by
  induction m with
  | nil => simp [Memory.erase]
  | cons c m ih =>
    obtain ⟨k, x⟩ := c
    by_cases hk : k = a
    · by_cases hb : b = a <;> simp_all [Memory.erase, Memory.read_cons]
      omega
    · by_cases hb : b = a <;> simp_all [Memory.erase, Memory.read_cons]

theorem Memory.read_insert (m : Memory) (a : Nat) (v : Byte) (b : Nat) (h : Memory.read m a = 0)
    (ha : ∀ x, (a, x) ∉ m) :
    Memory.read (Memory.insert m a v) b = if b = a then v else Memory.read m b := by
  induction m with
  | nil => simp [Memory.insert, Memory.read_cons, eq_comm (a := a)]
  | cons c m ih =>
    obtain ⟨k, x⟩ := c
    have hk : k ≠ a := fun e => ha x (by simp [e])
    have ih' := ih (by simpa [Memory.read_cons, hk] using h) (fun y hy => ha y (List.mem_cons_of_mem _ hy))
    by_cases hlt : a < k
    · rw [Memory.insert, if_pos hlt, Memory.read_cons]
      simp only [eq_comm (a := a)]
    · by_cases hb : b = a
      · subst hb
        simp [Memory.insert, hlt, Memory.read_cons, hk, ih']
      · simp [Memory.insert, hlt, Memory.read_cons, ih', hb]

theorem Memory.not_mem_erase (m : Memory) (a : Nat) (x : Byte) : (a, x) ∉ Memory.erase m a := by
  induction m with
  | nil => simp [Memory.erase]
  | cons c m ih =>
    obtain ⟨k, y⟩ := c
    by_cases hk : k = a
    · simpa [Memory.erase, hk] using ih
    · simp only [Memory.erase, if_neg hk, List.mem_cons, not_or]
      exact ⟨fun e => hk (Prod.mk.inj e).1.symm, ih⟩

/-- What a byte reads as after a write: the basic law of the buffer, in every state. -/
theorem Memory.read_write (m : Memory) (a : Nat) (v : Byte) (b : Nat) :
    (Memory.write m a v).read b = if b = a then v else m.read b := by
  by_cases hv : v = 0
  · simp [Memory.write, hv, Memory.read_erase]
  · have h0 : Memory.read (Memory.erase m a) a = 0 := by simp [Memory.read_erase]
    rw [Memory.write, if_neg hv, Memory.read_insert _ _ _ _ h0 (Memory.not_mem_erase m a)]
    by_cases hb : b = a <;> simp [hb, Memory.read_erase]

@[simp] theorem Memory.read_write_same (m : Memory) (a : Nat) (v : Byte) : (Memory.write m a v).read a = v := by
  simp [Memory.read_write]

theorem Memory.read_write_other (m : Memory) {a b : Nat} (v : Byte) (h : b ≠ a) :
    (Memory.write m a v).read b = m.read b := by
  simp [Memory.read_write, h]

/-! ### The canonical form -/

@[simp] theorem Memory.wf_nil : Memory.wf [] = true := rfl

theorem Memory.wfFrom_cons (lo k : Nat) (x : Byte) (m : Memory) :
    Memory.wfFrom lo ((k, x) :: m) = true ↔ lo ≤ k ∧ k < frameLen ∧ x ≠ 0 ∧ Memory.wfFrom (k + 1) m = true := by
  simp [Memory.wfFrom, and_assoc]

theorem Memory.wfFrom_mono {lo lo' : Nat} {m : Memory} (h : Memory.wfFrom lo m = true) (hl : lo' ≤ lo) :
    Memory.wfFrom lo' m = true := by
  cases m with
  | nil => rfl
  | cons c m =>
    obtain ⟨k, x⟩ := c
    rw [Memory.wfFrom_cons] at h ⊢
    exact ⟨by omega, h.2⟩

theorem Memory.read_below {lo : Nat} {m : Memory} (h : Memory.wfFrom lo m = true) {a : Nat} (ha : a < lo) :
    m.read a = 0 := by
  induction m generalizing lo with
  | nil => rfl
  | cons c m ih =>
    obtain ⟨k, x⟩ := c
    rw [Memory.wfFrom_cons] at h
    rw [Memory.read_cons, if_neg (by omega)]
    exact ih h.2.2.2 (by omega)

/-- No canonical buffer has a byte outside addresses 0 to 23 (rule R60). -/
theorem Memory.read_outside {m : Memory} (h : m.wf = true) {a : Nat} (ha : frameLen ≤ a) : m.read a = 0 := by
  rw [Memory.wf] at h
  generalize 0 = lo at h
  induction m generalizing lo with
  | nil => rfl
  | cons c m ih =>
    obtain ⟨k, x⟩ := c
    rw [Memory.wfFrom_cons] at h
    rw [Memory.read_cons, if_neg (by omega)]
    exact ih _ h.2.2.2

theorem Memory.wfFrom_erase {lo : Nat} {m : Memory} (h : Memory.wfFrom lo m = true) (a : Nat) :
    Memory.wfFrom lo (Memory.erase m a) = true := by
  induction m generalizing lo with
  | nil => rfl
  | cons c m ih =>
    obtain ⟨k, x⟩ := c
    rw [Memory.wfFrom_cons] at h
    by_cases hk : k = a
    · rw [Memory.erase, if_pos hk]
      exact Memory.wfFrom_mono (ih h.2.2.2) (by omega)
    · rw [Memory.erase, if_neg hk, Memory.wfFrom_cons]
      exact ⟨h.1, h.2.1, h.2.2.1, ih h.2.2.2⟩

theorem Memory.wfFrom_insert {lo : Nat} {m : Memory} (h : Memory.wfFrom lo m = true) {a : Nat} {v : Byte}
    (hlo : lo ≤ a) (ha : a < frameLen) (hv : v ≠ 0) (hm : ∀ x, (a, x) ∉ m) :
    Memory.wfFrom lo (Memory.insert m a v) = true := by
  induction m generalizing lo with
  | nil => exact (Memory.wfFrom_cons lo a v []).mpr ⟨hlo, ha, hv, rfl⟩
  | cons c m ih =>
    obtain ⟨k, x⟩ := c
    rw [Memory.wfFrom_cons] at h
    by_cases hlt : a < k
    · rw [Memory.insert, if_pos hlt, Memory.wfFrom_cons, Memory.wfFrom_cons]
      exact ⟨hlo, ha, hv, by omega, h.2⟩
    · have hk : k ≠ a := fun e => hm x (by simp [e])
      rw [Memory.insert, if_neg hlt, Memory.wfFrom_cons]
      exact ⟨h.1, h.2.1, h.2.2.1, ih h.2.2.2 (by omega) (fun y hy => hm y (List.mem_cons_of_mem _ hy))⟩

/-- A write inside the buffer keeps the canonical form. -/
theorem Memory.wf_write {m : Memory} (h : m.wf = true) {a : Nat} (v : Byte) (ha : a < frameLen) :
    (m.write a v).wf = true := by
  by_cases hv : v = 0
  · rw [Memory.write, if_pos hv]; exact Memory.wfFrom_erase h a
  · rw [Memory.write, if_neg hv]
    exact Memory.wfFrom_insert (Memory.wfFrom_erase h a) (Nat.zero_le a) ha hv (Memory.not_mem_erase m a)

theorem Memory.wfFrom_head {lo k : Nat} {x : Byte} {m : Memory} (h : Memory.wfFrom lo ((k, x) :: m) = true) :
    Memory.read ((k, x) :: m) k = x ∧ x ≠ 0 := by
  rw [Memory.wfFrom_cons] at h
  exact ⟨by simp [Memory.read_cons], h.2.2.1⟩

/-- Equal canonical buffers are equal data. -/
theorem Memory.ext_of_wf {m n : Memory} (hm : m.wf = true) (hn : n.wf = true) (h : ∀ a, m.read a = n.read a) : m = n := by
  rw [Memory.wf] at hm hn
  suffices ∀ lo, Memory.wfFrom lo m = true → Memory.wfFrom lo n = true → (∀ a, m.read a = n.read a) → m = n from
    this 0 hm hn h
  clear hm hn h
  induction m generalizing n with
  | nil =>
    intro lo _ hn h
    cases n with
    | nil => rfl
    | cons c n =>
      obtain ⟨k, x⟩ := c
      obtain ⟨h1, h2⟩ := Memory.wfFrom_head hn
      exact absurd ((h k).trans h1).symm h2
  | cons c m ih =>
    obtain ⟨k, x⟩ := c
    intro lo hm hn h
    cases n with
    | nil =>
      obtain ⟨h1, h2⟩ := Memory.wfFrom_head hm
      exact absurd (h1.symm.trans (h k)) h2
    | cons d n =>
      obtain ⟨l, y⟩ := d
      obtain ⟨h1, h2⟩ := Memory.wfFrom_head hm
      obtain ⟨g1, g2⟩ := Memory.wfFrom_head hn
      rw [Memory.wfFrom_cons] at hm hn
      have hkl : k = l := by
        rcases Nat.lt_trichotomy k l with hlt | he | hgt
        · have := h k
          rw [h1, Memory.read_cons, if_neg (by omega), Memory.read_below hn.2.2.2 (by omega)] at this
          exact absurd this h2
        · exact he
        · have := h l
          rw [g1, Memory.read_cons, if_neg (by omega), Memory.read_below hm.2.2.2 (by omega)] at this
          exact absurd this.symm g2
      subst hkl
      have hxy : x = y := by rw [← h1, ← g1]; exact h k
      subst hxy
      congr 1
      refine ih (k + 1) hm.2.2.2 hn.2.2.2 fun a => ?_
      by_cases hak : a ≤ k
      · rw [Memory.read_below hm.2.2.2 (by omega), Memory.read_below hn.2.2.2 (by omega)]
      · have := h a
        rwa [Memory.read_cons, Memory.read_cons, if_neg (by omega), if_neg (by omega)] at this

theorem Memory.erase_erase (m : Memory) (a : Nat) : Memory.erase (Memory.erase m a) a = Memory.erase m a := by
  induction m with
  | nil => rfl
  | cons c m ih =>
    obtain ⟨k, x⟩ := c
    by_cases hk : k = a <;> simp [Memory.erase, hk, ih]

theorem Memory.erase_insert_erase (m : Memory) (a : Nat) (v : Byte) :
    Memory.erase (Memory.insert (Memory.erase m a) a v) a = Memory.erase m a := by
  suffices ∀ n : Memory, Memory.erase (Memory.insert n a v) a = Memory.erase n a by
    rw [this, Memory.erase_erase]
  intro n
  induction n with
  | nil => simp [Memory.insert, Memory.erase]
  | cons c n ih =>
    obtain ⟨k, x⟩ := c
    by_cases hlt : a < k
    · simp [Memory.insert, hlt, Memory.erase]
    · by_cases hk : k = a <;> simp [Memory.insert, hlt, Memory.erase, hk, ih]

/-- Writing the same byte twice is writing it once. -/
@[simp] theorem Memory.write_write (m : Memory) (a : Nat) (v w : Byte) : (m.write a v).write a w = m.write a w := by
  have h : Memory.erase (m.write a v) a = Memory.erase m a := by
    by_cases hv : v = 0
    · simp [Memory.write, hv, Memory.erase_erase]
    · rw [Memory.write, if_neg hv, Memory.erase_insert_erase]
  rw [Memory.write, h, ← Memory.write]

/-! ### Big-endian reads and byte sums -/

@[simp] theorem memRead_zero (m : Memory) (a : Nat) : memRead m a 0 = 0 := rfl

theorem memRead_succ (m : Memory) (a n : Nat) : memRead m a (n + 1) = memRead m a n * 256 + (m.read (a + n)).toNat := rfl

theorem memRead_lt (m : Memory) (a n : Nat) : memRead m a n < 256 ^ n := by
  induction n with
  | zero => simp
  | succ n ih =>
    have hb := (m.read (a + n)).isLt
    rw [memRead_succ, Nat.pow_succ]
    omega

theorem memRead_congr {m n : Memory} {a k : Nat} (h : ∀ j, j < k → m.read (a + j) = n.read (a + j)) :
    memRead m a k = memRead n a k := by
  induction k with
  | zero => rfl
  | succ k ih => rw [memRead_succ, memRead_succ, ih fun j hj => h j (by omega), h k (by omega)]

@[simp] theorem sumBytes_zero (m : Memory) (a : Nat) : sumBytes m a 0 = 0 := rfl

theorem sumBytes_succ (m : Memory) (a n : Nat) : sumBytes m a (n + 1) = sumBytes m a n + m.read (a + n) := rfl

theorem sumBytes_congr {m n : Memory} {a k : Nat} (h : ∀ j, j < k → m.read (a + j) = n.read (a + j)) :
    sumBytes m a k = sumBytes n a k := by
  induction k with
  | zero => rfl
  | succ k ih => rw [sumBytes_succ, sumBytes_succ, ih fun j hj => h j (by omega), h k (by omega)]

theorem field24_congr {m n : Memory} {a : Nat} (h : ∀ j, j < 3 → m.read (a + j) = n.read (a + j)) :
    field24 m a = field24 n a := by
  rw [field24, field24, memRead_congr h]

theorem field16_congr {m n : Memory} {a : Nat} (h : ∀ j, j < 2 → m.read (a + j) = n.read (a + j)) :
    field16 m a = field16 n a := by
  rw [field16, field16, memRead_congr h]

end Sys2Proof.Machine
end

