-- ==== Sys2Proof/Laws/State.lean ====
section
/-! SUPPORT. One lemma per field of the state for each named update, so that no later proof unfolds a record update. -/
namespace Sys2Proof.Machine

variable (s : State)

/-! ### `store` -/

@[simp] theorem State.store_st (a : Nat) (v : Byte) : (s.store a v).st = s.st := rfl
@[simp] theorem State.store_idx (a : Nat) (v : Byte) : (s.store a v).idx = s.idx := rfl
@[simp] theorem State.store_acc (a : Nat) (v : Byte) : (s.store a v).acc = s.acc := rfl
@[simp] theorem State.store_buf (a : Nat) (v : Byte) : (s.store a v).buf = s.buf.write a v := rfl
@[simp] theorem State.store_fc (a : Nat) (v : Byte) : (s.store a v).fc = s.fc := rfl
@[simp] theorem State.store_reg (a : Nat) (v : Byte) : (s.store a v).reg = s.reg := rfl
@[simp] theorem State.store_cfg (a : Nat) (v : Byte) : (s.store a v).cfg = s.cfg := rfl
@[simp] theorem State.store_pending (a : Nat) (v : Byte) : (s.store a v).pending = s.pending := rfl
@[simp] theorem State.store_sampled (a : Nat) (v : Byte) : (s.store a v).sampled = s.sampled := rfl

/-! ### `goto` -/

@[simp] theorem State.goto_st (st : SeqState) (idx : BitVec 5) (acc : Byte) : (s.goto st idx acc).st = st := rfl
@[simp] theorem State.goto_idx (st : SeqState) (idx : BitVec 5) (acc : Byte) : (s.goto st idx acc).idx = idx := rfl
@[simp] theorem State.goto_acc (st : SeqState) (idx : BitVec 5) (acc : Byte) : (s.goto st idx acc).acc = acc := rfl
@[simp] theorem State.goto_buf (st : SeqState) (idx : BitVec 5) (acc : Byte) : (s.goto st idx acc).buf = s.buf := rfl
@[simp] theorem State.goto_fc (st : SeqState) (idx : BitVec 5) (acc : Byte) : (s.goto st idx acc).fc = s.fc := rfl
@[simp] theorem State.goto_reg (st : SeqState) (idx : BitVec 5) (acc : Byte) : (s.goto st idx acc).reg = s.reg := rfl
@[simp] theorem State.goto_cfg (st : SeqState) (idx : BitVec 5) (acc : Byte) : (s.goto st idx acc).cfg = s.cfg := rfl
@[simp] theorem State.goto_pending (st : SeqState) (idx : BitVec 5) (acc : Byte) : (s.goto st idx acc).pending = s.pending := rfl
@[simp] theorem State.goto_sampled (st : SeqState) (idx : BitVec 5) (acc : Byte) : (s.goto st idx acc).sampled = s.sampled := rfl

/-! ### `toSearching` -/

@[simp] theorem State.toSearching_st : (s.toSearching).st = .searching := rfl
@[simp] theorem State.toSearching_idx : (s.toSearching).idx = 0 := rfl
@[simp] theorem State.toSearching_acc : (s.toSearching).acc = 0 := rfl
@[simp] theorem State.toSearching_buf : (s.toSearching).buf = s.buf := rfl
@[simp] theorem State.toSearching_fc : (s.toSearching).fc = s.fc := rfl
@[simp] theorem State.toSearching_reg : (s.toSearching).reg = s.reg := rfl
@[simp] theorem State.toSearching_cfg : (s.toSearching).cfg = s.cfg := rfl
@[simp] theorem State.toSearching_pending : (s.toSearching).pending = s.pending := rfl
@[simp] theorem State.toSearching_sampled : (s.toSearching).sampled = s.sampled := rfl

/-! ### `setFc` -/

@[simp] theorem State.setFc_st (fc : Bool) : (s.setFc fc).st = s.st := rfl
@[simp] theorem State.setFc_idx (fc : Bool) : (s.setFc fc).idx = s.idx := rfl
@[simp] theorem State.setFc_acc (fc : Bool) : (s.setFc fc).acc = s.acc := rfl
@[simp] theorem State.setFc_buf (fc : Bool) : (s.setFc fc).buf = s.buf := rfl
@[simp] theorem State.setFc_fc (fc : Bool) : (s.setFc fc).fc = fc := rfl
@[simp] theorem State.setFc_reg (fc : Bool) : (s.setFc fc).reg = s.reg := rfl
@[simp] theorem State.setFc_cfg (fc : Bool) : (s.setFc fc).cfg = s.cfg := rfl
@[simp] theorem State.setFc_pending (fc : Bool) : (s.setFc fc).pending = s.pending := rfl
@[simp] theorem State.setFc_sampled (fc : Bool) : (s.setFc fc).sampled = s.sampled := rfl

/-! ### `setReg` -/

@[simp] theorem State.setReg_st (r : Regs) : (s.setReg r).st = s.st := rfl
@[simp] theorem State.setReg_idx (r : Regs) : (s.setReg r).idx = s.idx := rfl
@[simp] theorem State.setReg_acc (r : Regs) : (s.setReg r).acc = s.acc := rfl
@[simp] theorem State.setReg_buf (r : Regs) : (s.setReg r).buf = s.buf := rfl
@[simp] theorem State.setReg_fc (r : Regs) : (s.setReg r).fc = s.fc := rfl
@[simp] theorem State.setReg_reg (r : Regs) : (s.setReg r).reg = r := rfl
@[simp] theorem State.setReg_cfg (r : Regs) : (s.setReg r).cfg = s.cfg := rfl
@[simp] theorem State.setReg_pending (r : Regs) : (s.setReg r).pending = s.pending := rfl
@[simp] theorem State.setReg_sampled (r : Regs) : (s.setReg r).sampled = s.sampled := rfl

/-! ### `sample` -/

@[simp] theorem State.sample_st (x : Sampled) : (s.sample x).st = s.st := rfl
@[simp] theorem State.sample_idx (x : Sampled) : (s.sample x).idx = s.idx := rfl
@[simp] theorem State.sample_acc (x : Sampled) : (s.sample x).acc = s.acc := rfl
@[simp] theorem State.sample_buf (x : Sampled) : (s.sample x).buf = s.buf := rfl
@[simp] theorem State.sample_fc (x : Sampled) : (s.sample x).fc = s.fc := rfl
@[simp] theorem State.sample_reg (x : Sampled) : (s.sample x).reg = s.reg := rfl
@[simp] theorem State.sample_cfg (x : Sampled) : (s.sample x).cfg = s.cfg := rfl
@[simp] theorem State.sample_pending (x : Sampled) : (s.sample x).pending = s.pending := rfl
@[simp] theorem State.sample_sampled (x : Sampled) : (s.sample x).sampled = some x := rfl

/-! ### `clear` -/

@[simp] theorem State.clear_st : (s.clear).st = .searching := rfl
@[simp] theorem State.clear_idx : (s.clear).idx = 0 := rfl
@[simp] theorem State.clear_acc : (s.clear).acc = 0 := rfl
@[simp] theorem State.clear_buf : (s.clear).buf = [] := rfl
@[simp] theorem State.clear_fc : (s.clear).fc = false := rfl
@[simp] theorem State.clear_reg : (s.clear).reg = Regs.zero := rfl
@[simp] theorem State.clear_cfg : (s.clear).cfg = s.cfg := rfl
@[simp] theorem State.clear_pending : (s.clear).pending = s.pending := rfl
@[simp] theorem State.clear_sampled : (s.clear).sampled = s.sampled := rfl

/-! ### `present` -/

@[simp] theorem State.present_st (w : HostWord) : (s.present w).st = s.st := rfl
@[simp] theorem State.present_idx (w : HostWord) : (s.present w).idx = s.idx := rfl
@[simp] theorem State.present_acc (w : HostWord) : (s.present w).acc = s.acc := rfl
@[simp] theorem State.present_buf (w : HostWord) : (s.present w).buf = s.buf := rfl
@[simp] theorem State.present_fc (w : HostWord) : (s.present w).fc = s.fc := rfl
@[simp] theorem State.present_reg (w : HostWord) : (s.present w).reg = s.reg := rfl
@[simp] theorem State.present_cfg (w : HostWord) : (s.present w).cfg = s.cfg := rfl
@[simp] theorem State.present_pending (w : HostWord) : (s.present w).pending = w :: s.pending := rfl
@[simp] theorem State.present_sampled (w : HostWord) : (s.present w).sampled = s.sampled := rfl

end Sys2Proof.Machine
end

