-- ==== Sys2Proof/Laws/Framing.lean ====
section
/-! SUPPORT. The laws of the update and of the PUSH family: what each case writes and leaves, field by field; which case a
byte selects; what a list of pushes does. -/
namespace Sys2Proof.Machine

variable (s : State)

/-! ### The update -/

@[simp] theorem State.updVparam_st : s.updVparam.st = s.st := rfl
@[simp] theorem State.updVparam_idx : s.updVparam.idx = s.idx := rfl
@[simp] theorem State.updVparam_acc : s.updVparam.acc = s.acc := rfl
@[simp] theorem State.updVparam_buf : s.updVparam.buf = s.buf := rfl
@[simp] theorem State.updVparam_fc : s.updVparam.fc = s.fc := rfl
@[simp] theorem State.updVparam_cfg : s.updVparam.cfg = s.cfg := rfl
@[simp] theorem State.updVparam_pending : s.updVparam.pending = s.pending := rfl
@[simp] theorem State.updVparam_sampled : s.updVparam.sampled = s.sampled := rfl
@[simp] theorem State.updV_st : s.updV.st = s.st := rfl
@[simp] theorem State.updV_idx : s.updV.idx = s.idx := rfl
@[simp] theorem State.updV_acc : s.updV.acc = s.acc := rfl
@[simp] theorem State.updV_buf : s.updV.buf = s.buf := rfl
@[simp] theorem State.updV_fc : s.updV.fc = s.fc := rfl
@[simp] theorem State.updV_cfg : s.updV.cfg = s.cfg := rfl
@[simp] theorem State.updV_pending : s.updV.pending = s.pending := rfl
@[simp] theorem State.updV_sampled : s.updV.sampled = s.sampled := rfl
@[simp] theorem State.updIparam_st : s.updIparam.st = s.st := rfl
@[simp] theorem State.updIparam_idx : s.updIparam.idx = s.idx := rfl
@[simp] theorem State.updIparam_acc : s.updIparam.acc = s.acc := rfl
@[simp] theorem State.updIparam_buf : s.updIparam.buf = s.buf := rfl
@[simp] theorem State.updIparam_fc : s.updIparam.fc = s.fc := rfl
@[simp] theorem State.updIparam_cfg : s.updIparam.cfg = s.cfg := rfl
@[simp] theorem State.updIparam_pending : s.updIparam.pending = s.pending := rfl
@[simp] theorem State.updIparam_sampled : s.updIparam.sampled = s.sampled := rfl
@[simp] theorem State.updI_st : s.updI.st = s.st := rfl
@[simp] theorem State.updI_idx : s.updI.idx = s.idx := rfl
@[simp] theorem State.updI_acc : s.updI.acc = s.acc := rfl
@[simp] theorem State.updI_buf : s.updI.buf = s.buf := rfl
@[simp] theorem State.updI_fc : s.updI.fc = s.fc := rfl
@[simp] theorem State.updI_cfg : s.updI.cfg = s.cfg := rfl
@[simp] theorem State.updI_pending : s.updI.pending = s.pending := rfl
@[simp] theorem State.updI_sampled : s.updI.sampled = s.sampled := rfl
@[simp] theorem State.updPparam_st : s.updPparam.st = s.st := rfl
@[simp] theorem State.updPparam_idx : s.updPparam.idx = s.idx := rfl
@[simp] theorem State.updPparam_acc : s.updPparam.acc = s.acc := rfl
@[simp] theorem State.updPparam_buf : s.updPparam.buf = s.buf := rfl
@[simp] theorem State.updPparam_fc : s.updPparam.fc = s.fc := rfl
@[simp] theorem State.updPparam_cfg : s.updPparam.cfg = s.cfg := rfl
@[simp] theorem State.updPparam_pending : s.updPparam.pending = s.pending := rfl
@[simp] theorem State.updPparam_sampled : s.updPparam.sampled = s.sampled := rfl
@[simp] theorem State.updP_st : s.updP.st = s.st := rfl
@[simp] theorem State.updP_idx : s.updP.idx = s.idx := rfl
@[simp] theorem State.updP_acc : s.updP.acc = s.acc := rfl
@[simp] theorem State.updP_buf : s.updP.buf = s.buf := rfl
@[simp] theorem State.updP_fc : s.updP.fc = s.fc := rfl
@[simp] theorem State.updP_cfg : s.updP.cfg = s.cfg := rfl
@[simp] theorem State.updP_pending : s.updP.pending = s.pending := rfl
@[simp] theorem State.updP_sampled : s.updP.sampled = s.sampled := rfl
@[simp] theorem State.updPf_st : s.updPf.st = s.st := rfl
@[simp] theorem State.updPf_idx : s.updPf.idx = s.idx := rfl
@[simp] theorem State.updPf_acc : s.updPf.acc = s.acc := rfl
@[simp] theorem State.updPf_buf : s.updPf.buf = s.buf := rfl
@[simp] theorem State.updPf_fc : s.updPf.fc = s.fc := rfl
@[simp] theorem State.updPf_cfg : s.updPf.cfg = s.cfg := rfl
@[simp] theorem State.updPf_pending : s.updPf.pending = s.pending := rfl
@[simp] theorem State.updPf_sampled : s.updPf.sampled = s.sampled := rfl
@[simp] theorem State.updPfdata_st : s.updPfdata.st = s.st := rfl
@[simp] theorem State.updPfdata_idx : s.updPfdata.idx = s.idx := rfl
@[simp] theorem State.updPfdata_acc : s.updPfdata.acc = s.acc := rfl
@[simp] theorem State.updPfdata_buf : s.updPfdata.buf = s.buf := rfl
@[simp] theorem State.updPfdata_fc : s.updPfdata.fc = s.fc := rfl
@[simp] theorem State.updPfdata_cfg : s.updPfdata.cfg = s.cfg := rfl
@[simp] theorem State.updPfdata_pending : s.updPfdata.pending = s.pending := rfl
@[simp] theorem State.updPfdata_sampled : s.updPfdata.sampled = s.sampled := rfl
@[simp] theorem State.update_st : s.update.st = s.st := rfl
@[simp] theorem State.update_idx : s.update.idx = s.idx := rfl
@[simp] theorem State.update_acc : s.update.acc = s.acc := rfl
@[simp] theorem State.update_buf : s.update.buf = s.buf := rfl
@[simp] theorem State.update_fc : s.update.fc = s.fc := rfl
@[simp] theorem State.update_cfg : s.update.cfg = s.cfg := rfl
@[simp] theorem State.update_pending : s.update.pending = s.pending := rfl
@[simp] theorem State.update_sampled : s.update.sampled = s.sampled := rfl

/-- The update on the register file in one line (rule R152). -/
theorem State.update_reg : s.update.reg =
    { vparam := fieldVparam s.buf
      v := updIf (flagVoltage (fieldFlags s.buf)) s.reg.v (fieldV s.buf)
      iparam := fieldIparam s.buf
      i := updIf (flagCurrent (fieldFlags s.buf)) s.reg.i (fieldI s.buf)
      pparam := fieldPparam s.buf
      p := updIf (flagPower (fieldFlags s.buf)) s.reg.p (fieldP s.buf)
      pf := fieldPf s.buf
      pfdata := updIf (flagOverflow (fieldFlags s.buf)) s.reg.pfdata ((s.reg.pfdata + 1) % 2 ^ s.cfg.pfdataW) } :=
  rfl

theorem updIf_true {α : Type} (old new : α) : updIf true old new = new := rfl

theorem updIf_false {α : Type} (old new : α) : updIf false old new = old := rfl

theorem State.update_pfdata_lt (h : s.reg.pfdata < 2 ^ s.cfg.pfdataW) : s.update.reg.pfdata < 2 ^ s.cfg.pfdataW := by
  rw [State.update_reg]
  cases flagOverflow (fieldFlags s.buf)
  · exact h
  · exact Nat.mod_lt _ (Nat.two_pow_pos _)

/-! ### The cases of PUSH -/

@[simp] theorem State.pushSync_st : (s.pushSync).st = .headerMatched := rfl
@[simp] theorem State.pushSync_idx : (s.pushSync).idx = 1 := rfl
@[simp] theorem State.pushSync_acc : (s.pushSync).acc = s.acc := rfl
@[simp] theorem State.pushSync_buf : (s.pushSync).buf = s.buf.write 0 stateMarker := rfl
@[simp] theorem State.pushSync_fc : (s.pushSync).fc = false := rfl
@[simp] theorem State.pushSync_reg : (s.pushSync).reg = s.reg := rfl
@[simp] theorem State.pushSync_cfg : (s.pushSync).cfg = s.cfg := rfl
@[simp] theorem State.pushSync_pending : (s.pushSync).pending = s.pending := rfl
@[simp] theorem State.pushSync_sampled : (s.pushSync).sampled = s.sampled := rfl

@[simp] theorem State.pushCheck_st : (s.pushCheck).st = .accumulating := rfl
@[simp] theorem State.pushCheck_idx : (s.pushCheck).idx = 2 := rfl
@[simp] theorem State.pushCheck_acc : (s.pushCheck).acc = 0 := rfl
@[simp] theorem State.pushCheck_buf : (s.pushCheck).buf = s.buf.write 1 checkMarker := rfl
@[simp] theorem State.pushCheck_fc : (s.pushCheck).fc = false := rfl
@[simp] theorem State.pushCheck_reg : (s.pushCheck).reg = s.reg := rfl
@[simp] theorem State.pushCheck_cfg : (s.pushCheck).cfg = s.cfg := rfl
@[simp] theorem State.pushCheck_pending : (s.pushCheck).pending = s.pending := rfl
@[simp] theorem State.pushCheck_sampled : (s.pushCheck).sampled = s.sampled := rfl

@[simp] theorem State.pushStore_st (b : Byte) : (s.pushStore b).st = s.st := rfl
@[simp] theorem State.pushStore_idx (b : Byte) : (s.pushStore b).idx = s.idx + 1 := rfl
@[simp] theorem State.pushStore_acc (b : Byte) : (s.pushStore b).acc = s.acc + b := rfl
@[simp] theorem State.pushStore_buf (b : Byte) : (s.pushStore b).buf = s.buf.write s.idx.toNat b := rfl
@[simp] theorem State.pushStore_fc (b : Byte) : (s.pushStore b).fc = false := rfl
@[simp] theorem State.pushStore_reg (b : Byte) : (s.pushStore b).reg = s.reg := rfl
@[simp] theorem State.pushStore_cfg (b : Byte) : (s.pushStore b).cfg = s.cfg := rfl
@[simp] theorem State.pushStore_pending (b : Byte) : (s.pushStore b).pending = s.pending := rfl
@[simp] theorem State.pushStore_sampled (b : Byte) : (s.pushStore b).sampled = s.sampled := rfl

@[simp] theorem State.pushDrop_st : (s.pushDrop).st = .searching := rfl
@[simp] theorem State.pushDrop_idx : (s.pushDrop).idx = 0 := rfl
@[simp] theorem State.pushDrop_acc : (s.pushDrop).acc = 0 := rfl
@[simp] theorem State.pushDrop_buf : (s.pushDrop).buf = s.buf := rfl
@[simp] theorem State.pushDrop_fc : (s.pushDrop).fc = false := rfl
@[simp] theorem State.pushDrop_reg : (s.pushDrop).reg = s.reg := rfl
@[simp] theorem State.pushDrop_cfg : (s.pushDrop).cfg = s.cfg := rfl
@[simp] theorem State.pushDrop_pending : (s.pushDrop).pending = s.pending := rfl
@[simp] theorem State.pushDrop_sampled : (s.pushDrop).sampled = s.sampled := rfl

@[simp] theorem State.pushLast_st (b : Byte) : (s.pushLast b).st = .searching := rfl
@[simp] theorem State.pushLast_idx (b : Byte) : (s.pushLast b).idx = 0 := rfl
@[simp] theorem State.pushLast_acc (b : Byte) : (s.pushLast b).acc = 0 := rfl
@[simp] theorem State.pushLast_buf (b : Byte) : (s.pushLast b).buf = s.buf.write 23 b := by
  simp only [State.pushLast]
  split <;> rfl

@[simp] theorem State.pushLast_fc (b : Byte) : (s.pushLast b).fc = true := rfl
theorem State.pushLast_reg (b : Byte) : (s.pushLast b).reg = if s.acc = b then ((s.store 23 b).update).reg else s.reg := by
  simp only [State.pushLast, State.goto_acc, State.goto_buf, State.store_buf, fieldChecksum, Memory.read_write_same]
  split <;> rfl

@[simp] theorem State.pushLast_cfg (b : Byte) : (s.pushLast b).cfg = s.cfg := by
  simp only [State.pushLast]
  split <;> rfl

@[simp] theorem State.pushLast_pending (b : Byte) : (s.pushLast b).pending = s.pending := by
  simp only [State.pushLast]
  split <;> rfl

@[simp] theorem State.pushLast_sampled (b : Byte) : (s.pushLast b).sampled = s.sampled := by
  simp only [State.pushLast]
  split <;> rfl


/-! ### Which case a byte selects (rule R100) -/

@[simp] theorem State.pushCase_marker : s.pushCase stateMarker = .sync := by simp [State.pushCase]

theorem State.pushCase_eq_sync {b : Byte} : s.pushCase b = .sync ↔ b = stateMarker := by
  unfold State.pushCase
  split_ifs <;> simp_all

theorem State.pushCase_eq_check {b : Byte} :
    s.pushCase b = .check ↔ s.st = .headerMatched ∧ b = checkMarker := by
  unfold State.pushCase
  split_ifs with h1 h2 <;> simp_all [stateMarker, checkMarker]

theorem State.pushCase_eq_store {b : Byte} :
    s.pushCase b = .store ↔ b ≠ stateMarker ∧ s.st = .accumulating ∧ 2 ≤ s.idx.toNat ∧ s.idx.toNat ≤ 22 := by
  unfold State.pushCase
  split_ifs with h1 h2 h3 h4
  · simp [h1]
  · simp [h2.1]
  · simp [h1, h3, h4]
  · simp [h4]
  · simp only [false_iff]
    rintro ⟨_, h5, h6, h7⟩
    exact h3 ⟨h5, h6, by omega⟩

theorem State.pushCase_eq_last {b : Byte} :
    s.pushCase b = .last ↔ b ≠ stateMarker ∧ s.st = .accumulating ∧ s.idx.toNat = 23 := by
  unfold State.pushCase
  split_ifs with h1 h2 h3 h4
  · simp [h1]
  · simp [h2.1]
  · simp only [false_iff]
    omega
  · simp only [true_iff]
    exact ⟨h1, h3.1, by omega⟩
  · simp only [false_iff]
    rintro ⟨_, h5, h6⟩
    exact h3 ⟨h5, by omega, by omega⟩

/-- What `PUSH b` can do: one of the five cases, under the condition that selects it (rule R100). -/
theorem State.push_cases (b : Byte) :
    (b = stateMarker ∧ s.push b = s.pushSync) ∨
    (s.st = .headerMatched ∧ b = checkMarker ∧ s.push b = s.pushCheck) ∨
    (b ≠ stateMarker ∧ s.st = .accumulating ∧ 2 ≤ s.idx.toNat ∧ s.idx.toNat ≤ 22 ∧ s.push b = s.pushStore b) ∨
    (b ≠ stateMarker ∧ s.st = .accumulating ∧ s.idx.toNat = 23 ∧ s.push b = s.pushLast b) ∨
    (b ≠ stateMarker ∧ ¬(s.st = .headerMatched ∧ b = checkMarker) ∧
      ¬(s.st = .accumulating ∧ 2 ≤ s.idx.toNat ∧ s.idx.toNat ≤ 23) ∧ s.push b = s.pushDrop) := by
  unfold State.push
  cases h : s.pushCase b with
  | sync => exact .inl ⟨s.pushCase_eq_sync.mp h, rfl⟩
  | check => exact .inr (.inl ⟨(s.pushCase_eq_check.mp h).1, (s.pushCase_eq_check.mp h).2, rfl⟩)
  | store =>
    obtain ⟨h1, h2, h3, h4⟩ := s.pushCase_eq_store.mp h
    exact .inr (.inr (.inl ⟨h1, h2, h3, h4, rfl⟩))
  | last =>
    obtain ⟨h1, h2, h3⟩ := s.pushCase_eq_last.mp h
    exact .inr (.inr (.inr (.inl ⟨h1, h2, h3, rfl⟩)))
  | drop =>
    refine .inr (.inr (.inr (.inr ⟨?_, ?_, ?_, rfl⟩)))
    · intro e; rw [s.pushCase_eq_sync.mpr e] at h; cases h
    · intro e; rw [s.pushCase_eq_check.mpr e] at h; cases h
    · rintro ⟨h1, h2, h3⟩
      by_cases hb : b = stateMarker
      · rw [s.pushCase_eq_sync.mpr hb] at h; cases h
      · rcases Nat.lt_or_ge s.idx.toNat 23 with hi | hi
        · rw [s.pushCase_eq_store.mpr ⟨hb, h1, h2, by omega⟩] at h; cases h
        · rw [s.pushCase_eq_last.mpr ⟨hb, h1, by omega⟩] at h; cases h

@[simp] theorem State.push_cfg (b : Byte) : (s.push b).cfg = s.cfg := by
  unfold State.push
  split <;> simp

@[simp] theorem State.push_pending (b : Byte) : (s.push b).pending = s.pending := by
  unfold State.push
  split <;> simp

@[simp] theorem State.push_sampled (b : Byte) : (s.push b).sampled = s.sampled := by
  unfold State.push
  split <;> simp

/-! ### Lists of pushes -/

@[simp] theorem State.pushAll_nil : s.pushAll [] = s := rfl

@[simp] theorem State.pushAll_cons (b : Byte) (bs : List Byte) : s.pushAll (b :: bs) = (s.push b).pushAll bs := rfl

theorem State.pushAll_append (bs cs : List Byte) : s.pushAll (bs ++ cs) = (s.pushAll bs).pushAll cs := by
  induction bs generalizing s with
  | nil => rfl
  | cons b bs ih => exact ih _

@[simp] theorem State.pushAll_cfg (bs : List Byte) : (s.pushAll bs).cfg = s.cfg := by
  induction bs generalizing s with
  | nil => rfl
  | cons b bs ih => rw [State.pushAll_cons, ih, State.push_cfg]

@[simp] theorem State.pushAll_pending (bs : List Byte) : (s.pushAll bs).pending = s.pending := by
  induction bs generalizing s with
  | nil => rfl
  | cons b bs ih => rw [State.pushAll_cons, ih, State.push_pending]

@[simp] theorem State.pushAll_sampled (bs : List Byte) : (s.pushAll bs).sampled = s.sampled := by
  induction bs generalizing s with
  | nil => rfl
  | cons b bs ih => rw [State.pushAll_cons, ih, State.push_sampled]

/-- What a list of payload bytes without 0x55 does in Accumulating: each is stored and summed (rule R103, several times over). -/
theorem State.pushAll_stores (bs : List Byte) (h : s.st = .accumulating) (h2 : 2 ≤ s.idx.toNat)
    (hl : s.idx.toNat + bs.length ≤ 23) (hb : ∀ b ∈ bs, b ≠ stateMarker) :
    (s.pushAll bs).st = .accumulating ∧ (s.pushAll bs).idx.toNat = s.idx.toNat + bs.length ∧
      (s.pushAll bs).acc = bs.foldl (· + ·) s.acc ∧
      (s.pushAll bs).reg = s.reg ∧ (bs ≠ [] → (s.pushAll bs).fc = false) ∧
      (∀ a, (s.pushAll bs).buf.read a = if s.idx.toNat ≤ a then (bs[a - s.idx.toNat]?).getD (s.buf.read a) else s.buf.read a) := by
  induction bs generalizing s with
  | nil => simp [h]
  | cons b bs ih =>
    simp only [List.length_cons] at hl
    have hpu : s.push b = s.pushStore b := by
      simp [State.push, s.pushCase_eq_store.mpr ⟨hb b (by simp), h, h2, by omega⟩]
    have hidx : (s.pushStore b).idx.toNat = s.idx.toNat + 1 := by simp [BitVec.toNat_add]; omega
    rw [State.pushAll_cons, hpu]
    obtain ⟨g1, g2, g3, g4, g5, g6⟩ := ih (s.pushStore b) h (by omega) (by omega) (fun x hx => hb x (by simp [hx]))
    refine ⟨g1, by simp only [List.length_cons]; omega, by simpa using g3, g4, fun _ => ?_, ?_⟩
    · by_cases he : bs = []
      · subst he; rfl
      · exact g5 he
    · intro a
      rw [g6, hidx, State.pushStore_buf, Memory.read_write]
      rcases Nat.lt_trichotomy a s.idx.toNat with ha | ha | ha
      · rw [if_neg (by omega), if_neg (by omega), if_neg (by omega)]
      · subst ha; simp
      · rw [if_pos (by omega), if_neg (by omega), if_pos (by omega), show a - s.idx.toNat = (a - (s.idx.toNat + 1)) + 1 by omega]
        simp

/-- The two markers, pushed in any state, begin a payload (rules R101, R102). -/
theorem State.push_header : (s.push stateMarker).push checkMarker = s.pushSync.pushCheck := by
  have h1 : s.push stateMarker = s.pushSync := by simp [State.push]
  have h2 : s.pushSync.pushCase checkMarker = .check := s.pushSync.pushCase_eq_check.mpr ⟨rfl, rfl⟩
  rw [h1]
  simp [State.push, h2]

end Sys2Proof.Machine
end

