-- ==== Sys2Proof/Laws/Exec.lean ====
section
/-! SUPPORT. What an operation and a step can do, said once: the inversion lemmas of `exec` and `step`. -/
namespace Sys2Proof.Machine

variable (s : State)

/-! ### The five cases of PUSH are pushes -/

theorem State.push_of_sync : s.push stateMarker = s.pushSync := by simp [State.push]

theorem State.push_of_check (h : s.pushCase checkMarker = .check) : s.push checkMarker = s.pushCheck := by
  simp [State.push, h]

theorem State.push_of_store {b : Byte} (h : s.pushCase b = .store) : s.push b = s.pushStore b := by
  simp [State.push, h]

theorem State.push_of_last {b : Byte} (h : s.pushCase b = .last) : s.push b = s.pushLast b := by
  simp [State.push, h]

theorem State.push_of_drop {b : Byte} (h : s.pushCase b = .drop) : s.push b = s.pushDrop := by
  simp [State.push, h]

theorem exec_pushSync : exec .pushSync s = .next (s.push stateMarker) := by
  rw [State.push_of_sync]; rfl

theorem exec_pushCheck : exec .pushCheck s = .next (s.push checkMarker) := by
  simp only [exec, execPushCheck]
  split_ifs with h
  · rw [State.push_of_check s h]
  · rfl

theorem exec_pushStore (b : Byte) : exec (.pushStore b) s = .next (s.push b) := by
  simp only [exec, execPushStore]
  split_ifs with h
  · rw [State.push_of_store s h]
  · rfl

theorem exec_pushLast (b : Byte) : exec (.pushLast b) s = .next (s.push b) := by
  simp only [exec, execPushLast]
  split_ifs with h
  · rw [State.push_of_last s h]
  · rfl

theorem exec_pushDrop (b : Byte) : exec (.pushDrop b) s = .next (s.push b) := by
  simp only [exec, execPushDrop]
  split_ifs with h
  · rw [State.push_of_drop s h]
  · rfl

/-- The bytes that an operation pushes, if it is one that pushes. -/
def pushedBytes : Instr → Option (List Byte)
  | .push b => some [b]
  | .pushSync => some [stateMarker]
  | .pushCheck => some [checkMarker]
  | .pushStore b => some [b]
  | .pushLast b => some [b]
  | .pushDrop b => some [b]
  | .frame f k => some (f.bytes k)
  | .construct | .reset | .idle | .updVparam | .updV | .updIparam | .updI | .updPparam | .updP | .updPf | .updPfdata
  | .chk | .getV | .getI | .getP | .getS | .getPf | .getE => none

/-- What an operation that answers a next state can do. -/
theorem exec_next_cases {i : Instr} {t : State} (h : exec i s = .next t) :
    ((i = .construct ∨ i = .reset) ∧ t = s.clear) ∨
    (∃ bs, pushedBytes i = some bs ∧ t = s.pushAll bs) ∨
    (∃ lane, i = UpdLane.toInstr lane ∧ ∃ r, t = s.setReg r ∧
      (r.pfdata = s.reg.pfdata ∨ r.pfdata = s.nextPfdata)) ∨
    (∃ port, i = ReadPort.toInstr port ∧ ∃ x, t = s.sample x) ∨
    (i = .idle ∧ t = s) := by
  cases i
  case construct =>
    simp only [exec, execConstruct] at h
    split_ifs at h
    cases h
    exact .inl ⟨.inl rfl, rfl⟩
  case reset => cases h; exact .inl ⟨.inr rfl, rfl⟩
  case push b => cases h; exact .inr (.inl ⟨[b], rfl, rfl⟩)
  case idle => cases h; exact .inr (.inr (.inr (.inr ⟨rfl, rfl⟩)))
  case pushSync => rw [exec_pushSync] at h; cases h; exact .inr (.inl ⟨_, rfl, rfl⟩)
  case pushCheck => rw [exec_pushCheck] at h; cases h; exact .inr (.inl ⟨_, rfl, rfl⟩)
  case pushStore b => rw [exec_pushStore] at h; cases h; exact .inr (.inl ⟨_, rfl, rfl⟩)
  case pushLast b => rw [exec_pushLast] at h; cases h; exact .inr (.inl ⟨_, rfl, rfl⟩)
  case pushDrop b => rw [exec_pushDrop] at h; cases h; exact .inr (.inl ⟨_, rfl, rfl⟩)
  case frame f k => cases h; exact .inr (.inl ⟨_, rfl, rfl⟩)
  case updVparam => cases h; exact .inr (.inr (.inl ⟨.vparam, rfl, _, rfl, .inl rfl⟩))
  case updV => cases h; exact .inr (.inr (.inl ⟨.v, rfl, _, rfl, .inl rfl⟩))
  case updIparam => cases h; exact .inr (.inr (.inl ⟨.iparam, rfl, _, rfl, .inl rfl⟩))
  case updI => cases h; exact .inr (.inr (.inl ⟨.i, rfl, _, rfl, .inl rfl⟩))
  case updPparam => cases h; exact .inr (.inr (.inl ⟨.pparam, rfl, _, rfl, .inl rfl⟩))
  case updP => cases h; exact .inr (.inr (.inl ⟨.p, rfl, _, rfl, .inl rfl⟩))
  case updPf => cases h; exact .inr (.inr (.inl ⟨.pf, rfl, _, rfl, .inl rfl⟩))
  case updPfdata => cases h; exact .inr (.inr (.inl ⟨.pfdata, rfl, _, rfl, .inr rfl⟩))
  case chk => cases h; exact .inr (.inr (.inr (.inl ⟨.checksumValid, rfl, _, rfl⟩)))
  case getV => cases h; exact .inr (.inr (.inr (.inl ⟨.vEff, rfl, _, rfl⟩)))
  case getI => cases h; exact .inr (.inr (.inr (.inl ⟨.iEff, rfl, _, rfl⟩)))
  case getP => cases h; exact .inr (.inr (.inr (.inl ⟨.pActive, rfl, _, rfl⟩)))
  case getS => cases h; exact .inr (.inr (.inr (.inl ⟨.pApparent, rfl, _, rfl⟩)))
  case getPf => cases h; exact .inr (.inr (.inr (.inl ⟨.powerFactor, rfl, _, rfl⟩)))
  case getE => cases h; exact .inr (.inr (.inr (.inl ⟨.energyKwh, rfl, _, rfl⟩)))

/-! ### The step -/

@[simp] theorem State.fetch_nil (h : s.pending = []) : s.fetch = (.idle, s) := by simp [State.fetch, h]

@[simp] theorem State.fetch_cons {w : HostWord} {rest : List HostWord} (h : s.pending = w :: rest) :
    s.fetch = (decodeHost w, { s with pending := rest }) := by
  simp [State.fetch, h]

/-- A step that answers a next state is the fetched operation's. -/
theorem step_eq_next {t : State} :
    step s = .next t ↔ s.cfg.legal = true ∧ exec s.fetch.1 s.fetch.2 = .next t := by
  unfold step
  split_ifs with h <;> simp [h]

theorem step_of_legal (h : s.cfg.legal = true) : step s = exec s.fetch.1 s.fetch.2 := by simp [step, h]

end Sys2Proof.Machine
end

