-- ==== Sys2Proof/Laws/Float.lean ====
section
/-! SUPPORT. The laws of the floating-point primitives: what one rounding does, the canonical form of its result, its sign,
and the special operands. -/
namespace Sys2Proof

/-! ### Rounding to an integer -/

theorem roundDiv_cases (n d : Nat) :
    (roundDiv n d = n / d ∧ 2 * (n % d) ≤ d ∧ (2 * (n % d) = d → n / d % 2 = 0)) ∨
    (roundDiv n d = n / d + 1 ∧ d ≤ 2 * (n % d) ∧ (2 * (n % d) = d → n / d % 2 = 1)) := by
  simp only [roundDiv, Bool.or_eq_true, Bool.and_eq_true, decide_eq_true_eq, beq_iff_eq]
  split_ifs with h
  · exact .inr ⟨rfl, by omega, by omega⟩
  · exact .inl ⟨rfl, by omega, by omega⟩

theorem roundDiv_zero (d : Nat) : roundDiv 0 d = 0 := by
  rcases roundDiv_cases 0 d with ⟨h, -, -⟩ | ⟨-, h, h'⟩
  · simpa using h
  · simp only [Nat.zero_mod, Nat.mul_zero, Nat.le_zero] at h h'
    subst h
    simp at h'

theorem le_roundDiv (n d : Nat) : n / d ≤ roundDiv n d := by
  rcases roundDiv_cases n d with ⟨h, -, -⟩ | ⟨h, -, -⟩ <;> omega

theorem roundDiv_le (n d : Nat) : roundDiv n d ≤ n / d + 1 := by
  rcases roundDiv_cases n d with ⟨h, -, -⟩ | ⟨h, -, -⟩ <;> omega

/-- A quotient that is exact is left as it is. -/
theorem roundDiv_exact (m : Nat) {d : Nat} (hd : 0 < d) : roundDiv (m * d) d = m := by
  have h1 : m * d / d = m := Nat.mul_div_cancel m hd
  have h2 : m * d % d = 0 := Nat.mul_mod_left m d
  rcases roundDiv_cases (m * d) d with ⟨h, -, -⟩ | ⟨-, h, -⟩ <;> omega

/-- The rounded quotient is within half a unit. -/
theorem roundDiv_near (n : Nat) {d : Nat} (hd : 0 < d) :
    2 * n ≤ 2 * (roundDiv n d * d) + d ∧ 2 * (roundDiv n d * d) ≤ 2 * n + d := by
  have hdm : d * (n / d) + n % d = n := Nat.div_add_mod n d
  have hlt := Nat.mod_lt n hd
  rcases roundDiv_cases n d with ⟨h, h', -⟩ | ⟨h, h', -⟩
  · have e : n / d * d = d * (n / d) := Nat.mul_comm _ _
    rw [h, e]; omega
  · have e : (n / d + 1) * d = d * (n / d) + d := by rw [Nat.add_mul, Nat.one_mul, Nat.mul_comm]
    rw [h, e]; omega

/-! ### The rounding of a number of the format -/

theorem FpFmt.precision_pos (fmt : FpFmt) : 2 ≤ fmt.precision := by cases fmt <;> decide

theorem roundExp_bound (fmt : FpFmt) (n d : Nat) :
    n / (d * 2 ^ roundExp fmt n d) < 2 ^ fmt.precision ∧
      (roundExp fmt n d = 0 ∨ 2 ^ (fmt.precision - 1) ≤ n / (d * 2 ^ roundExp fmt n d)) := by
  rw [← Nat.div_div_eq_div_mul]
  unfold roundExp
  generalize n / d = x
  have hp := fmt.precision_pos
  generalize fmt.precision = p at hp ⊢
  constructor
  · rw [Nat.div_lt_iff_lt_mul (Nat.two_pow_pos _), ← Nat.pow_add]
    refine lt_of_lt_of_le (Nat.lt_log2_self (n := x)) (Nat.pow_le_pow_right (by decide) (by omega))
  · rcases Nat.eq_zero_or_pos (x.log2 + 1 - p) with h | h
    · exact .inl h
    · right
      have hx : x ≠ 0 := by
        rintro rfl
        simp at h
        omega
      rw [Nat.le_div_iff_mul_le (Nat.two_pow_pos _), ← Nat.pow_add]
      exact le_trans (Nat.pow_le_pow_right (by decide) (by omega)) (Nat.log2_self_le hx)

theorem Fp.pack_of_lt {fmt : FpFmt} {neg : Bool} {sig exp : Nat} (h : sig < 2 ^ fmt.precision) :
    Fp.pack fmt neg sig exp = if fmt.maxExp < exp then .inf neg else .fin neg sig exp := by
  simp [Fp.pack, h.ne]

theorem Fp.pack_carry (fmt : FpFmt) (neg : Bool) (exp : Nat) :
    Fp.pack fmt neg (2 ^ fmt.precision) exp =
      if fmt.maxExp < exp + 1 then .inf neg else .fin neg (2 ^ (fmt.precision - 1)) (exp + 1) := by
  simp [Fp.pack]

/-- Every rounded result is a number of the format in its canonical form. -/
theorem Fp.round_canonical (fmt : FpFmt) (neg : Bool) (n d : Nat) : (Fp.round fmt neg n d).canonical fmt = true := by
  obtain ⟨h1, h2⟩ := roundExp_bound fmt n d
  have hle := le_roundDiv n (d * 2 ^ roundExp fmt n d)
  have hge := roundDiv_le n (d * 2 ^ roundExp fmt n d)
  have hp := fmt.precision_pos
  simp only [Fp.round]
  generalize roundDiv n (d * 2 ^ roundExp fmt n d) = m at hle hge ⊢
  generalize n / (d * 2 ^ roundExp fmt n d) = q at h1 h2 hle hge
  generalize roundExp fmt n d = e at h2 ⊢
  rcases Nat.lt_or_ge m (2 ^ fmt.precision) with hm | hm
  · rw [Fp.pack_of_lt hm]
    split_ifs with hx
    · rfl
    · simp only [Fp.canonical, Bool.and_eq_true, Bool.or_eq_true, decide_eq_true_eq]
      exact ⟨⟨hm, by omega⟩, h2.imp id (by omega)⟩
  · have hm' : m = 2 ^ fmt.precision := by omega
    rw [hm', Fp.pack_carry]
    split_ifs with hx
    · rfl
    · simp only [Fp.canonical, Bool.and_eq_true, Bool.or_eq_true, decide_eq_true_eq]
      exact ⟨⟨Nat.pow_lt_pow_right (by decide) (by omega), by omega⟩, .inr (le_refl _)⟩

@[simp] theorem Fp.pack_isNegative (fmt : FpFmt) (neg : Bool) (sig exp : Nat) :
    (Fp.pack fmt neg sig exp).isNegative = neg := by
  simp only [Fp.pack]
  split_ifs <;> rfl

/-- Rounding keeps the sign. -/
@[simp] theorem Fp.round_isNegative (fmt : FpFmt) (neg : Bool) (n d : Nat) :
    (Fp.round fmt neg n d).isNegative = neg := by
  simp [Fp.round]

theorem Fp.round_ne_nan (fmt : FpFmt) (neg : Bool) (n d : Nat) : Fp.round fmt neg n d ≠ .nan := by
  simp only [Fp.round, Fp.pack]
  split_ifs <;> simp

/-- Zero rounds to zero. -/
@[simp] theorem Fp.round_zero (fmt : FpFmt) (neg : Bool) (d : Nat) : Fp.round fmt neg 0 d = Fp.zero neg := by
  have he : roundExp fmt 0 d = 0 := by
    have := fmt.precision_pos
    simp [roundExp]
    omega
  have hp : (0 : Nat) < 2 ^ fmt.precision := Nat.two_pow_pos _
  simp only [Fp.round, he, roundDiv_zero]
  rw [Fp.pack_of_lt hp]
  simp [Fp.zero]

/-- A number of at least the smallest positive one does not round to zero. -/
theorem Fp.round_isPositive (fmt : FpFmt) {n d : Nat} (hd : 0 < d) (h : d ≤ n) :
    (Fp.round fmt false n d).isPositive = true := by
  obtain ⟨-, h2⟩ := roundExp_bound fmt n d
  have hle := le_roundDiv n (d * 2 ^ roundExp fmt n d)
  have hpos : 0 < roundDiv n (d * 2 ^ roundExp fmt n d) := by
    rcases h2 with h2 | h2
    · rw [h2, Nat.pow_zero, Nat.mul_one] at hle ⊢
      exact lt_of_lt_of_le (Nat.div_pos h hd) hle
    · exact lt_of_lt_of_le (Nat.two_pow_pos _) (le_trans h2 hle)
  simp only [Fp.round, Fp.pack]
  split_ifs <;> simp [Fp.isPositive, hpos]

/-- A number below the largest power of two of the format does not round to an infinity. -/
theorem Fp.round_isFiniteNonneg (fmt : FpFmt) {n d : Nat} (h : n < d * 2 ^ (fmt.precision + fmt.maxExp - 1)) :
    (Fp.round fmt false n d).isFiniteNonneg = true := by
  have hd : 0 < d := by
    rcases Nat.eq_zero_or_pos d with h0 | h0
    · simp [h0] at h
    · exact h0
  have hx : n / d < 2 ^ (fmt.precision + fmt.maxExp - 1) := Nat.div_lt_of_lt_mul h
  have he : roundExp fmt n d + 1 ≤ fmt.maxExp := by
    have hm : 2 ≤ fmt.maxExp := by cases fmt <;> decide
    have hp := fmt.precision_pos
    unfold roundExp
    rcases Nat.eq_zero_or_pos (n / d) with h0 | h0
    · simp only [h0, Nat.log2_zero]
      omega
    · have : (n / d).log2 < fmt.precision + fmt.maxExp - 1 := (Nat.log2_lt (by omega)).mpr hx
      omega
  simp only [Fp.round, Fp.pack]
  split_ifs <;> first | rfl | omega

/-! ### What one rounding is: the nearest number of the format -/

theorem FpFmt.two_pow_precision (fmt : FpFmt) : 2 ^ fmt.precision = 2 * 2 ^ (fmt.precision - 1) := by cases fmt <;> decide

/-- What a finite result of `Fp.pack` is: the number packed, in its canonical form. -/
theorem Fp.pack_eq_fin {fmt : FpFmt} {neg n : Bool} {m e s x : Nat} (h : Fp.pack fmt neg m e = .fin n s x) :
    n = neg ∧ s * 2 ^ x = m * 2 ^ e ∧ (s = m ∨ m = 2 ^ fmt.precision ∧ s = 2 ^ (fmt.precision - 1)) := by
  have hp := fmt.precision_pos
  simp only [Fp.pack] at h
  split_ifs at h with h1 h2 h3 <;> cases h
  · refine ⟨rfl, ?_, .inr ⟨h1, rfl⟩⟩
    rw [h1, ← Nat.pow_add, ← Nat.pow_add]
    congr 1
    omega
  · exact ⟨rfl, rfl, .inl rfl⟩

/-- The distance from `n` to the multiple `j` of `D` is at least that to the rounded quotient's; where it is the same and `j` is another
multiple, the rounded quotient is even. -/
theorem roundDiv_nearest (n : Nat) {D : Nat} (hD : 0 < D) (j : Nat) :
    ((n : Int) - (roundDiv n D * D : Nat)).natAbs ≤ ((n : Int) - (j * D : Nat)).natAbs ∧
      (((n : Int) - (roundDiv n D * D : Nat)).natAbs = ((n : Int) - (j * D : Nat)).natAbs →
        j = roundDiv n D ∨ roundDiv n D % 2 = 0) := by
  have hdm : D * (n / D) + n % D = n := Nat.div_add_mod n D
  have hlt := Nat.mod_lt n hD
  have hmul : n / D * D = D * (n / D) := Nat.mul_comm _ _
  have hlow : ∀ c, j + c = n / D → j * D + c * D = n / D * D := fun c h => by rw [← Nat.add_mul, h]
  rcases roundDiv_cases n D with ⟨h, h1, h2⟩ | ⟨h, h1, h2⟩ <;> rw [h]
  · rcases Nat.lt_trichotomy j (n / D) with hj | hj | hj
    · obtain ⟨c, hc⟩ : ∃ c, j + (c + 1) = n / D := ⟨n / D - j - 1, by omega⟩
      have := hlow _ hc
      have hc1 : (c + 1) * D = c * D + D := Nat.succ_mul c D
      constructor
      · omega
      · intro; right; omega
    · subst hj; exact ⟨le_refl _, fun _ => .inl rfl⟩
    · obtain ⟨c, rfl⟩ : ∃ c, j = n / D + (c + 1) := ⟨j - n / D - 1, by omega⟩
      have hc1 : (n / D + (c + 1)) * D = n / D * D + c * D + D := by rw [Nat.add_mul, Nat.succ_mul]; omega
      constructor
      · omega
      · intro he
        right
        apply h2
        omega
  · have hm1 : (n / D + 1) * D = n / D * D + D := Nat.succ_mul _ _
    rcases Nat.lt_trichotomy j (n / D + 1) with hj | hj | hj
    · obtain ⟨c, hc⟩ : ∃ c, j + c = n / D := ⟨n / D - j, by omega⟩
      have := hlow _ hc
      constructor
      · omega
      · intro he
        right
        have := h2 (by omega)
        omega
    · subst hj; exact ⟨le_refl _, fun _ => .inl rfl⟩
    · obtain ⟨c, rfl⟩ : ∃ c, j = n / D + 1 + (c + 1) := ⟨j - n / D - 2, by omega⟩
      have hc1 : (n / D + 1 + (c + 1)) * D = n / D * D + D + c * D + D := by rw [Nat.add_mul, Nat.succ_mul, Nat.succ_mul]; omega
      constructor
      · omega
      · intro he; omega

/-- One rounding goes to a nearest number of the format, and to the even significand where another is as near. -/
theorem Fp.round_nearest {fmt : FpFmt} {neg n' : Bool} {n d s x : Nat} (hd : 0 < d) (h : Fp.round fmt neg n d = .fin n' s x)
    {s' x' : Nat} (hc : (Fp.fin n' s' x').canonical fmt = true) :
    ((n : Int) - (s * 2 ^ x * d : Nat)).natAbs ≤ ((n : Int) - (s' * 2 ^ x' * d : Nat)).natAbs ∧
      (((n : Int) - (s * 2 ^ x * d : Nat)).natAbs = ((n : Int) - (s' * 2 ^ x' * d : Nat)).natAbs →
        s' * 2 ^ x' = s * 2 ^ x ∨ s % 2 = 0) := by
  obtain ⟨hb1, hb2⟩ := roundExp_bound fmt n d
  simp only [Fp.round] at h
  generalize roundExp fmt n d = e at h hb1 hb2
  obtain ⟨-, hv, hs⟩ := Fp.pack_eq_fin h
  have hD : 0 < d * 2 ^ e := Nat.mul_pos hd (Nat.two_pow_pos _)
  have hval : ∀ a b : Nat, a * 2 ^ b * d = a * (d * 2 ^ b) := fun a b => by ring
  rw [hv, hval]
  simp only [Fp.canonical, Bool.and_eq_true, Bool.or_eq_true, decide_eq_true_eq] at hc
  have heven : roundDiv n (d * 2 ^ e) % 2 = 0 → s % 2 = 0 := by
    intro hm
    rcases hs with hs | ⟨-, hs⟩
    · rw [hs]; exact hm
    · rw [hs]; cases fmt <;> decide
  rcases Nat.lt_or_ge x' e with hx | hx
  · -- a number of a lower binade: farther than the first of this one
    have hq : 2 ^ (fmt.precision - 1) ≤ n / (d * 2 ^ e) := hb2.resolve_left (by omega)
    have hnear := (roundDiv_nearest n hD (2 ^ (fmt.precision - 1))).1
    have hn : 2 ^ (fmt.precision - 1) * (d * 2 ^ e) ≤ n := (Nat.le_div_iff_mul_le hD).mp hq
    have hlt : s' * 2 ^ x' * d < 2 ^ (fmt.precision - 1) * (d * 2 ^ e) := by
      have h1 : 2 ^ x' * 2 ≤ 2 ^ e := by rw [← Nat.pow_succ]; exact Nat.pow_le_pow_right (by decide) hx
      have h2 : s' < 2 * 2 ^ (fmt.precision - 1) := by rw [← fmt.two_pow_precision]; exact hc.1.1
      calc s' * 2 ^ x' * d < 2 * 2 ^ (fmt.precision - 1) * 2 ^ x' * d :=
            Nat.mul_lt_mul_of_pos_right (Nat.mul_lt_mul_of_pos_right h2 (Nat.two_pow_pos _)) hd
        _ = 2 ^ (fmt.precision - 1) * (2 ^ x' * 2) * d := by ring
        _ ≤ 2 ^ (fmt.precision - 1) * 2 ^ e * d := Nat.mul_le_mul_right _ (Nat.mul_le_mul_left _ h1)
        _ = 2 ^ (fmt.precision - 1) * (d * 2 ^ e) := by ring
    constructor
    · omega
    · intro he; omega
  · obtain ⟨c, rfl⟩ := Nat.exists_eq_add_of_le hx
    have hj : s' * 2 ^ (e + c) * d = s' * 2 ^ c * (d * 2 ^ e) := by rw [Nat.pow_add]; ring
    obtain ⟨h1, h2⟩ := roundDiv_nearest n hD (s' * 2 ^ c)
    rw [hj]
    refine ⟨h1, fun he => ?_⟩
    rcases h2 he with h2 | h2
    · left
      rw [← h2, Nat.pow_add]; ring
    · exact .inr (heven h2)

/-- One rounding gives an infinity exactly from half a unit beyond the largest finite number on. -/
theorem Fp.round_eq_inf_iff {fmt : FpFmt} {neg : Bool} {n d : Nat} (hd : 0 < d) :
    Fp.round fmt neg n d = .inf neg ↔ (2 ^ (fmt.precision + 1) - 1) * 2 ^ fmt.maxExp * d ≤ 2 * n := by
  obtain ⟨hb1, hb2⟩ := roundExp_bound fmt n d
  have hp := fmt.precision_pos
  have htp := fmt.two_pow_precision
  have hpp : 2 ^ (fmt.precision + 1) = 2 * 2 ^ fmt.precision := by rw [Nat.pow_succ, Nat.mul_comm]
  have hq0 : 0 < 2 ^ (fmt.precision - 1) := Nat.two_pow_pos _
  simp only [Fp.round]
  generalize roundExp fmt n d = e at hb1 hb2
  have hD : 0 < d * 2 ^ e := Nat.mul_pos hd (Nat.two_pow_pos _)
  have hle := le_roundDiv n (d * 2 ^ e)
  have hge := roundDiv_le n (d * 2 ^ e)
  have hcases := roundDiv_cases n (d * 2 ^ e)
  have hdm : (d * 2 ^ e) * (n / (d * 2 ^ e)) + n % (d * 2 ^ e) = n := Nat.div_add_mod _ _
  have hml := Nat.mod_lt n hD
  have hn1 : n < 2 ^ fmt.precision * (d * 2 ^ e) := (Nat.div_lt_iff_lt_mul hD).mp hb1
  have hsub : ∀ a b : Nat, (2 ^ (fmt.precision + 1) - 1) * a * b = 2 * (2 ^ fmt.precision * (b * a)) - b * a := by
    intro a b
    rw [Nat.mul_assoc, Nat.sub_mul, hpp, Nat.one_mul, Nat.mul_comm a b, Nat.mul_assoc]
  rw [hsub]
  generalize roundDiv n (d * 2 ^ e) = m at hle hge hcases
  rcases Nat.lt_trichotomy fmt.maxExp e with he | he | he
  · have hinf : Fp.pack fmt neg m e = .inf neg := by
      simp only [Fp.pack]
      split_ifs <;> first | rfl | omega
    rw [hinf]
    refine iff_of_true rfl ?_
    have hq : 2 ^ (fmt.precision - 1) ≤ n / (d * 2 ^ e) := hb2.resolve_left (by omega)
    have hn : 2 ^ (fmt.precision - 1) * (d * 2 ^ e) ≤ n := (Nat.le_div_iff_mul_le hD).mp hq
    have h2 : d * 2 ^ fmt.maxExp * 2 ≤ d * 2 ^ e := by
      rw [Nat.mul_assoc, ← Nat.pow_succ]
      exact Nat.mul_le_mul_left _ (Nat.pow_le_pow_right (by decide) he)
    have h3 : 2 ^ fmt.precision * (d * 2 ^ fmt.maxExp) ≤ 2 ^ (fmt.precision - 1) * (d * 2 ^ e) := by
      rw [htp, Nat.mul_comm 2, Nat.mul_assoc]
      exact Nat.mul_le_mul_left _ (by omega)
    omega
  · subst he
    have hup : (2 ^ fmt.precision - 1) * (d * 2 ^ fmt.maxExp) = 2 ^ fmt.precision * (d * 2 ^ fmt.maxExp) - d * 2 ^ fmt.maxExp := by
      rw [Nat.sub_mul, Nat.one_mul]
    have hDle : d * 2 ^ fmt.maxExp ≤ 2 ^ fmt.precision * (d * 2 ^ fmt.maxExp) := Nat.le_mul_of_pos_left _ (Nat.two_pow_pos _)
    generalize hDD : d * 2 ^ fmt.maxExp = D at *
    by_cases hm : m = 2 ^ fmt.precision
    · rw [hm, Fp.pack_carry, if_pos (by omega)]
      refine iff_of_true rfl ?_
      have hq : n / D = 2 ^ fmt.precision - 1 := by omega
      have hqm : D * (n / D) = 2 ^ fmt.precision * D - D := by rw [hq, Nat.mul_comm, hup]
      omega
    · rw [Fp.pack_of_lt (by omega), if_neg (by omega)]
      refine iff_of_false (by simp) fun hcon => ?_
      have hq : 2 ^ fmt.precision - 1 ≤ n / D := by
        rw [Nat.le_div_iff_mul_le hD, hup]
        omega
      have hq' : n / D = 2 ^ fmt.precision - 1 := by omega
      have hqm : D * (n / D) = 2 ^ fmt.precision * D - D := by rw [hq', Nat.mul_comm, hup]
      rcases hcases with ⟨h1, h2, h3⟩ | ⟨h1, -, -⟩
      · have := h3 (by omega)
        omega
      · omega
  · have hfin : Fp.pack fmt neg m e ≠ .inf neg := by
      simp only [Fp.pack]
      split_ifs <;> first | omega | simp
    refine iff_of_false hfin fun hcon => ?_
    have h2 : d * 2 ^ e * 2 ≤ d * 2 ^ fmt.maxExp := by
      rw [Nat.mul_assoc, ← Nat.pow_succ]
      exact Nat.mul_le_mul_left _ (Nat.pow_le_pow_right (by decide) he)
    have h3 : 2 * (2 ^ fmt.precision * (d * 2 ^ e)) ≤ 2 ^ fmt.precision * (d * 2 ^ fmt.maxExp) := by
      rw [Nat.mul_left_comm]; exact Nat.mul_le_mul_left _ (by omega)
    have h4 : 2 * (d * 2 ^ fmt.maxExp) ≤ 2 ^ fmt.precision * (d * 2 ^ fmt.maxExp) := Nat.mul_le_mul_right _ (by omega)
    omega

/-- All that one rounding does, in the words of the claims. -/
theorem Fp.round_isRounded (fmt : FpFmt) (neg : Bool) (n : Nat) {d : Nat} (hd : 0 < d) :
    (Fp.round fmt neg n d).IsRounded fmt neg n d := by
  have hinf := Fp.round_eq_inf_iff (fmt := fmt) (neg := neg) (n := n) hd
  have hsign := Fp.round_isNegative fmt neg n d
  have hcan := Fp.round_canonical fmt neg n d
  cases h : Fp.round fmt neg n d with
  | nan => exact absurd h (Fp.round_ne_nan fmt neg n d)
  | inf sign =>
    rw [h] at hsign hinf
    obtain rfl : sign = neg := hsign
    exact ⟨rfl, hinf.mp rfl⟩
  | fin sign sig exp =>
    rw [h] at hsign hinf hcan
    exact ⟨hsign, hcan, Nat.lt_of_not_le fun hle => (by cases hinf.mpr hle), fun _ _ hc => Fp.round_nearest hd h hc⟩

/-! ### The primitives -/

@[simp] theorem fdiv_nan_left (fmt : FpFmt) (y : Fp) : fdiv fmt .nan y = .nan := by cases y <;> rfl

@[simp] theorem fdiv_nan_right (fmt : FpFmt) (x : Fp) : fdiv fmt x .nan = .nan := by cases x <;> rfl

@[simp] theorem fmul_nan_left (fmt : FpFmt) (y : Fp) : fmul fmt .nan y = .nan := by cases y <;> rfl

@[simp] theorem fmul_nan_right (fmt : FpFmt) (x : Fp) : fmul fmt x .nan = .nan := by cases x <;> rfl

/-- `fcvt(0)` is +0. -/
@[simp] theorem fcvt_zero (fmt : FpFmt) : fcvt fmt 0 = .fin false 0 0 := by simp [fcvt, Fp.zero]

theorem fcvt_isPositive (fmt : FpFmt) {n : Nat} (h : 0 < n) : (fcvt fmt n).isPositive = true :=
  Fp.round_isPositive fmt Nat.one_pos (Nat.mul_pos h (Nat.two_pow_pos _))

theorem fcvt_canonical (fmt : FpFmt) (n : Nat) : (fcvt fmt n).canonical fmt = true := Fp.round_canonical fmt _ _ _

theorem fcvt_isNegative (fmt : FpFmt) (n : Nat) : (fcvt fmt n).isNegative = false := Fp.round_isNegative fmt _ _ _

/-- The quotient of two zeros is NaN. -/
theorem fdiv_zero_zero (fmt : FpFmt) (a b : Bool) (e f : Nat) : fdiv fmt (.fin a 0 e) (.fin b 0 f) = .nan := rfl

theorem fdiv_canonical (fmt : FpFmt) (x y : Fp) : (fdiv fmt x y).canonical fmt = true := by
  have hz (c : Bool) : (Fp.zero c).canonical fmt = true := by
    cases fmt <;> decide +revert
  cases x <;> cases y <;> simp only [fdiv] <;> (try split_ifs) <;>
    first | rfl | exact hz _ | exact Fp.round_canonical fmt _ _ _

theorem fmul_canonical (fmt : FpFmt) (x y : Fp) : (fmul fmt x y).canonical fmt = true := by
  cases x <;> cases y <;> simp only [fmul] <;> (try split_ifs) <;>
    first | rfl | exact Fp.round_canonical fmt _ _ _

/-- The sign rule of division: two values that are not negative have a quotient that is not negative. -/
theorem fdiv_isNegative (fmt : FpFmt) {x y : Fp} (hx : x.isNegative = false) (hy : y.isNegative = false) :
    (fdiv fmt x y).isNegative = false := by
  cases x <;> cases y <;> simp only [Fp.isNegative] at hx hy <;> subst_vars <;> simp only [fdiv] <;>
    (try split_ifs) <;> first | rfl | exact Fp.round_isNegative fmt _ _ _

/-- The sign rule of multiplication. -/
theorem fmul_isNegative (fmt : FpFmt) {x y : Fp} (hx : x.isNegative = false) (hy : y.isNegative = false) :
    (fmul fmt x y).isNegative = false := by
  cases x <;> cases y <;> simp only [Fp.isNegative] at hx hy <;> subst_vars <;> simp only [fmul] <;>
    (try split_ifs) <;> first | rfl | exact Fp.round_isNegative fmt _ _ _

theorem Ohms.toFp_isNegative (fmt : FpFmt) {r : Ohms} (h : r.positive = true) : (r.toFp fmt).isNegative = false := by
  simp only [Ohms.positive, Bool.and_eq_true, decide_eq_true_eq] at h
  have hn : decide (r.num < 0) = false := by simp; omega
  rw [Ohms.toFp, if_neg (by omega), hn]
  exact Fp.round_isNegative fmt _ _ _

/-! ### The operands of a class -/

theorem Fp.isPositiveFinite_cases {x : Fp} (h : x.isPositiveFinite = true) : ∃ s e, x = .fin false s e ∧ 0 < s := by
  cases x with
  | fin n s e =>
    simp only [Fp.isPositiveFinite, Bool.and_eq_true, Bool.not_eq_true', decide_eq_true_eq] at h
    obtain ⟨rfl, h⟩ := h
    exact ⟨s, e, rfl, h⟩
  | nan => simp [Fp.isPositiveFinite] at h
  | inf n => simp [Fp.isPositiveFinite] at h

theorem Fp.isFiniteNonneg_cases {x : Fp} (h : x.isFiniteNonneg = true) : ∃ s e, x = .fin false s e := by
  cases x with
  | fin n s e =>
    simp only [Fp.isFiniteNonneg, Bool.not_eq_true'] at h
    subst h
    exact ⟨s, e, rfl⟩
  | nan => simp [Fp.isFiniteNonneg] at h
  | inf n => simp [Fp.isFiniteNonneg] at h

theorem Fp.isPositive_cases {x : Fp} (h : x.isPositive = true) : x = .inf false ∨ ∃ s e, x = .fin false s e ∧ 0 < s := by
  cases x with
  | fin n s e =>
    simp only [Fp.isPositive, Bool.and_eq_true, Bool.not_eq_true', decide_eq_true_eq] at h
    obtain ⟨rfl, h⟩ := h
    exact .inr ⟨s, e, rfl, h⟩
  | inf n =>
    simp only [Fp.isPositive, Bool.not_eq_true'] at h
    subst h
    exact .inl rfl
  | nan => simp [Fp.isPositive] at h

/-- A positive integer below 2^64, and so every register that is not 0 and the constant `K`, converts to a positive finite number. -/
theorem fcvt_isPositiveFinite (fmt : FpFmt) {n : Nat} (h : 0 < n) (hn : n < 2 ^ 64) : (fcvt fmt n).isPositiveFinite = true := by
  have h1 := fcvt_isPositive fmt h
  have h2 : (fcvt fmt n).isFiniteNonneg = true := by
    apply Fp.round_isFiniteNonneg
    rw [Nat.one_mul]
    calc n * 2 ^ fmt.ulpScale < 2 ^ 64 * 2 ^ fmt.ulpScale := Nat.mul_lt_mul_of_pos_right hn (Nat.two_pow_pos _)
      _ = 2 ^ (64 + fmt.ulpScale) := (Nat.pow_add ..).symm
      _ ≤ _ := Nat.pow_le_pow_right (by decide) (by cases fmt <;> decide)
  obtain ⟨s, e, h3⟩ := Fp.isFiniteNonneg_cases h2
  rw [h3] at h1 ⊢
  simpa [Fp.isPositive, Fp.isPositiveFinite] using h1

end Sys2Proof
end

