-- ==== Sys2Proof/Laws/PerInstr.lean ====
section
/-! SUPPORT. The family `EncodingRow`: the word of every operation has the format of its row of spec/opcode_table.json and that
row's fixed bits (match under mask), the table's values written out here. -/
namespace Sys2Proof.Laws

/-- A row of the operation table: its format, and its match and mask in that format. -/
inductive TableRow where
  | cmd3 (pattern mask : BitVec 3)
  | push10 (pattern mask : BitVec 10)
  | frame192 (pattern mask : BitVec 192)
  | flags8 (pattern mask : BitVec 8)
  | read

/-- A word has the row's format and its fixed bits. -/
def TableRow.fits : TableRow → CodeWord → Prop
  | .cmd3 pattern mask, .cmd3 cmd _ => cmd &&& mask = pattern
  | .push10 pattern mask, .push10 w => w &&& mask = pattern
  | .frame192 pattern mask, .frame192 w => w &&& mask = pattern
  | .flags8 pattern mask, .flags8 _ flags => flags &&& mask = pattern
  | .read, .read _ => True
  | _, _ => False

/-- The rows of spec/opcode_table.json. -/
def tableRow : Instr → TableRow
  | .construct => .cmd3 0b100 0b100
  | .reset => .cmd3 0b010 0b110
  | .push _ => .cmd3 0b001 0b111
  | .idle => .cmd3 0b000 0b111
  | .pushSync => .push10 0x055 0x0FF
  | .pushCheck => .push10 0x15A 0x3FF
  | .pushStore _ => .push10 0x200 0x300
  | .pushLast _ => .push10 0x300 0x300
  | .pushDrop _ => .push10 0x000 0x000
  | .frame _ _ => .frame192 0x555A00000000000000000000000000000000000000000000 0xFFFF00000000000000000000000000000000000000000000
  | .updVparam => .flags8 0x00 0x00
  | .updV => .flags8 0x40 0x40
  | .updIparam => .flags8 0x00 0x00
  | .updI => .flags8 0x20 0x20
  | .updPparam => .flags8 0x00 0x00
  | .updP => .flags8 0x10 0x10
  | .updPf => .flags8 0x00 0x00
  | .updPfdata => .flags8 0x80 0x80
  | .chk => .read
  | .getV => .read
  | .getI => .read
  | .getP => .read
  | .getS => .read
  | .getPf => .read
  | .getE => .read

namespace EncodingRow

/-- The word of `i` fits the row of `i`. -/
def Statement (i : Instr) : Prop := (tableRow i).fits (encode i)

theorem construct : Statement .construct := by
  simp [Statement, tableRow, encode, TableRow.fits]

theorem reset : Statement .reset := by
  simp [Statement, tableRow, encode, TableRow.fits]

theorem push (b : Byte) : Statement (.push b) := by
  simp [Statement, tableRow, encode, TableRow.fits]

theorem idle : Statement .idle := by
  simp [Statement, tableRow, encode, TableRow.fits]

theorem pushSync : Statement .pushSync := by
  simp [Statement, tableRow, encode, TableRow.fits]

theorem pushCheck : Statement .pushCheck := by
  simp [Statement, tableRow, encode, TableRow.fits]

theorem pushStore (b : Byte) : Statement (.pushStore b) := by
  simp only [Statement, tableRow, encode, TableRow.fits]
  revert b
  decide

theorem pushLast (b : Byte) : Statement (.pushLast b) := by
  simp only [Statement, tableRow, encode, TableRow.fits]
  revert b
  decide

theorem pushDrop (b : Byte) : Statement (.pushDrop b) := by
  simp only [Statement, tableRow, encode, TableRow.fits]
  revert b
  decide

theorem frame (f : FrameArgs) (k : Byte) : Statement (.frame f k) :=
  frame_row_of_header (encodeFrame_header f k)

theorem updVparam : Statement .updVparam := by
  simp [Statement, tableRow, encode, TableRow.fits]

theorem updV : Statement .updV := by
  simp [Statement, tableRow, encode, TableRow.fits]

theorem updIparam : Statement .updIparam := by
  simp [Statement, tableRow, encode, TableRow.fits]

theorem updI : Statement .updI := by
  simp [Statement, tableRow, encode, TableRow.fits]

theorem updPparam : Statement .updPparam := by
  simp [Statement, tableRow, encode, TableRow.fits]

theorem updP : Statement .updP := by
  simp [Statement, tableRow, encode, TableRow.fits]

theorem updPf : Statement .updPf := by
  simp [Statement, tableRow, encode, TableRow.fits]

theorem updPfdata : Statement .updPfdata := by
  simp [Statement, tableRow, encode, TableRow.fits]

theorem chk : Statement .chk := by
  simp [Statement, tableRow, encode, TableRow.fits]

theorem getV : Statement .getV := by
  simp [Statement, tableRow, encode, TableRow.fits]

theorem getI : Statement .getI := by
  simp [Statement, tableRow, encode, TableRow.fits]

theorem getP : Statement .getP := by
  simp [Statement, tableRow, encode, TableRow.fits]

theorem getS : Statement .getS := by
  simp [Statement, tableRow, encode, TableRow.fits]

theorem getPf : Statement .getPf := by
  simp [Statement, tableRow, encode, TableRow.fits]

theorem getE : Statement .getE := by
  simp [Statement, tableRow, encode, TableRow.fits]

end EncodingRow

end Sys2Proof.Laws
end

