-- ==== Sys2Proof/Tests/Slice0.lean ====
section
/-! SUPPORT. The model's own tests. Every expected value is the spec's: a worked example of a rule, a vector of 95_test_vectors.md, or the
table of encodings; the comment before a test names it. After the tests of the operations stand the witnesses: for every statement with
hypotheses, states and operands that meet them all. -/
namespace Sys2Proof.Tests

open Sys2Proof Sys2Proof.Machine

/-! ## Helpers -/

/-- The state of a run, where there is one. -/
def after : Host.Outcome State Fault Refusal → Option State
  | .next t => some t
  | .fault _ => none
  | .refused _ => none

/-- The state of one operation. -/
def does (i : Instr) (s : State) : Option State := after (exec i s)

/-- A buffer with these bytes from address `a` on. -/
def bufFrom (a : Nat) : List Byte → Memory
  | [] => []
  | b :: bs => if b = 0 then bufFrom (a + 1) bs else (a, b) :: bufFrom (a + 1) bs

/-- The reset state with the sequencer, the accumulator and the buffer given. -/
def seqAt (st : SeqState) (idx : BitVec 5) (acc : Byte) (buf : Memory) : State :=
  { State.reset with st := st, idx := idx, acc := acc, buf := buf }

/-- The reset state of a block of the format `fmt` with the registers given. -/
def regsAt (fmt : FpFmt) (r : Regs) : State := { State.resetOf (Config.withFormat fmt) with reg := r }

/-- `st/idx/acc/fc`, as 95_test_vectors.md writes a state. -/
def seqOf (o : Option State) : Option (SeqState × Nat × Byte × Bool) := o.map fun t => (t.st, t.idx.toNat, t.acc, t.fc)

/-- The bits of the number that a read returned. -/
def bitsRead (fmt : FpFmt) (o : Option State) : Option Nat :=
  match o with
  | some t =>
    match t.sampled with
    | some (.quantity x) => Fp.bits fmt x
    | some (.flag _) => none
    | none => none
  | none => none

/-- F0, the source's frame. -/
def f0 : FrameArgs :=
  { vparam := 191400, v := 3500, iparam := 16100, i := 56107, pparam := 5313000, p := 1686825, flags := 0x71, pf := 237 }

/-- The bytes of F0 before its checksum byte. -/
def f0Bytes : List Byte :=
  [0x55, 0x5A, 0x02, 0xEB, 0xA8, 0x00, 0x0D, 0xAC, 0x00, 0x3E, 0xE4, 0x00, 0xDB, 0x2B, 0x51, 0x11, 0xE8, 0x19, 0xBD, 0x29,
   0x71, 0x00, 0xED]

/-- F1. -/
def f1 : FrameArgs :=
  { vparam := 200000, v := 4000, iparam := 16000, i := 60000, pparam := 5000000, p := 2000000, flags := 0xA0, pf := 16 }

/-- F5: a field holds 0x55. -/
def f5 : FrameArgs := { f0 with v := 0x000055 }

/-- F7: the checksum is 0x55. -/
def f7 : FrameArgs := { f0 with pf := 37 }

/-- The registers at the end of X1. -/
def x1 : Regs :=
  { vparam := 191400, v := 3500, iparam := 16100, i := 56107, pparam := 5313000, p := 1686825, pf := 237, pfdata := 0 }

/-- The registers of X1 over the buffer of G(fl): the start of V-E1 to V-E6 with the frame's bytes in place. -/
def overG (fl : Byte) : State :=
  { regsAt .binary64 x1 with
    buf := bufFrom 0 [0x55, 0x5A, 0x00, 0x03, 0xE8, 0x00, 0x07, 0xD0, 0x00, 0x0B, 0xB8, 0x00, 0x0F, 0xA0, 0x00, 0x13, 0x88,
      0x00, 0x17, 0x70, fl, 0x00, 0x07] }

/-- Just before the last byte of F0. -/
def beforeLast : State := seqAt .accumulating 23 0x1D (bufFrom 0 f0Bytes)

/-- A block with illegal parameters. -/
def badBlock : State := { State.reset with cfg := { Config.standard with voltageR2 := ⟨0, 1⟩ } }

/-! ## Well-formedness -/

/-- Rule R103: 0x55 is never PUSH.STORE. -/
theorem test_ill_formed_store : ¬WellFormed (.pushStore 0x55) := by decide

/-- Rule R104: 0x55 is never PUSH.LAST. -/
theorem test_ill_formed_last : ¬WellFormed (.pushLast 0x55) := by decide

/-- Rule R105: 0x55 is never PUSH.DROP. -/
theorem test_ill_formed_drop : ¬WellFormed (.pushDrop 0x55) := by decide

/-- Rule R97: a FRAME carries its checksum byte or that byte with bit 0 inverted. -/
theorem test_ill_formed_frame :
    ¬WellFormed (.frame f0 0x1E) ∧ WellFormed (.frame f0 0x1D) ∧ WellFormed (.frame f0 0x1C) := by decide

/-! ## Decoding: the words of rules R80, R82, R88, R91, R92 -/

/-- Rule R91. -/
theorem test_decode_commands :
    decode (.cmd3 0b100 0) = .ok .construct ∧ decode (.cmd3 0b101 0x55) = .ok .construct ∧
    decode (.cmd3 0b010 0) = .ok .reset ∧ decode (.cmd3 0b011 0x55) = .ok .reset ∧
    decode (.cmd3 0b001 0x02) = .ok (.push 0x02) ∧ decode (.cmd3 0b000 0xFF) = .ok .idle := by decide

/-- Rule R88. -/
theorem test_decode_push_words :
    decode (.push10 0b0001010101) = .ok .pushSync ∧ decode (.push10 0b1101010101) = .ok .pushSync ∧
    decode (.push10 0b0101011010) = .ok .pushCheck ∧ decode (.push10 0b1000000010) = .ok (.pushStore 0x02) ∧
    decode (.push10 0b1100011101) = .ok (.pushLast 0x1D) ∧ decode (.push10 0b0100010010) = .ok (.pushDrop 0x12) := by decide

/-- Rules R80 and R85: the 192 bits of F0. -/
theorem test_decode_frame :
    decode (.frame192 0x555A02EBA8000DAC003EE400DB2B5111E819BD297100ED1D) = .ok (.frame f0 0x1D) := by decide

/-- Rule R81: another byte pair begins no frame. -/
theorem test_decode_frame_header :
    decode (.frame192 0x555B02EBA8000DAC003EE400DB2B5111E819BD297100ED1D) = .error .frameHeader := by decide

/-- Rule R82: flags 0x71. -/
theorem test_decode_flags :
    decode (.flags8 .vparam 0x71) = .ok .updVparam ∧ decode (.flags8 .v 0x71) = .ok .updV ∧
    decode (.flags8 .iparam 0x71) = .ok .updIparam ∧ decode (.flags8 .i 0x71) = .ok .updI ∧
    decode (.flags8 .pparam 0x71) = .ok .updPparam ∧ decode (.flags8 .p 0x71) = .ok .updP ∧
    decode (.flags8 .pf 0x71) = .ok .updPf ∧ decode (.flags8 .pfdata 0xA0) = .ok .updPfdata := by decide

/-- Rule R82: a clear gate bit. -/
theorem test_decode_flags_clear :
    decode (.flags8 .pfdata 0x71) = .error .gateClear ∧ decode (.flags8 .v 0xA0) = .error .gateClear ∧
    decode (.flags8 .i 0x50) = .error .gateClear ∧ decode (.flags8 .p 0xA0) = .error .gateClear := by decide

/-- Rule R92. -/
theorem test_decode_reads :
    decode (.read .checksumValid) = .ok .chk ∧ decode (.read .vEff) = .ok .getV ∧ decode (.read .iEff) = .ok .getI ∧
    decode (.read .pActive) = .ok .getP ∧ decode (.read .pApparent) = .ok .getS ∧
    decode (.read .powerFactor) = .ok .getPf ∧ decode (.read .energyKwh) = .ok .getE := by decide

/-- The table's numbering: PUSH.CHECK's ten bits, and PUSH. -/
theorem test_decode_table_words :
    decodeTableWord 16 0x15A = some .pushCheck ∧ decodeTableWord 8 1 = some (.push 0) ∧
    decodeTableWord 8 0x40 = some .updV ∧ decodeTableWord 0 0 = some .chk := by decide

/-- A staged table word is what the next step runs: PUSH.CHECK. -/
theorem test_fetch_table_word :
    seqOf (after (step (State.reset.withFetchWord 16 0x15A))) = some (.accumulating, 2, 0, false) := by decide

/-- A staged flags byte runs in the update of the frame it completes: flags bit 7. -/
theorem test_fetch_flags_word :
    (after (step (State.reset.withFetchWord 8 0x80))).map (fun t => t.reg.pfdata) = some 1 := by decide

/-! ## The control operations -/

/-- V-R1: the reset state, from the end of a frame. -/
theorem test_construct : does .construct { beforeLast with reg := x1, fc := true } = some State.reset := by decide

/-- U4. -/
theorem test_construct_refused : does .construct badBlock = none := by decide

/-- V-R2. -/
theorem test_reset : does .reset { beforeLast with reg := x1 } = some State.reset := by decide

/-- Rule R112, example. -/
theorem test_idle : does .idle (seqAt .accumulating 10 0x3D []) = some (seqAt .accumulating 10 0x3D []) := by decide

/-! ## PUSH -/

/-- Rule R101, example: a spurious 0x55 in mid-frame; the accumulator stays. -/
theorem test_push_sync_in_frame : seqOf (does (.push 0x55) (seqAt .accumulating 5 0x95 [])) = some (.headerMatched, 1, 0x95, false) := by
  decide

/-- V-F3. -/
theorem test_push_check_marker_in_searching : does (.push 0x5A) State.reset = some State.reset := by decide

/-- V-F5. -/
theorem test_push_sync :
    (does .pushSync (seqAt .headerMatched 1 0 [(0, 0x55)])) = some (seqAt .headerMatched 1 0 [(0, 0x55)]) := by decide

/-- Rule R102, example. -/
theorem test_push_check :
    (does .pushCheck (seqAt .headerMatched 1 0x95 [(0, 0x55)])) = some (seqAt .accumulating 2 0 [(0, 0x55), (1, 0x5A)]) := by decide

/-- Rule R103, example. -/
theorem test_push_store :
    (does (.pushStore 0xEB) (seqAt .accumulating 3 0x02 [(2, 0x02)])) = some (seqAt .accumulating 4 0xED [(2, 0x02), (3, 0xEB)]) := by
  decide

/-- Rule R103, corner a: the accumulator wraps. -/
theorem test_push_store_wraps : seqOf (does (.pushStore 0x20) (seqAt .accumulating 22 0xF0 [])) = some (.accumulating, 23, 0x10, false) := by
  decide

/-- Rule R104, example: the checksum matches. -/
theorem test_push_last : (does (.pushLast 0x1D) beforeLast).map (fun t => (t.reg, t.st, t.idx.toNat, t.fc)) = some (x1, .searching, 0, true) := by
  decide

/-- Rule R104, example: the checksum does not match. -/
theorem test_push_last_mismatch :
    (does (.pushLast 0x1C) beforeLast).map (fun t => (t.reg, t.fc, t.checksumValid)) = some (Regs.zero, true, false) := by decide

/-- Rule R105, example. -/
theorem test_push_drop : seqOf (does (.pushDrop 0x12) (seqAt .headerMatched 1 0x95 [])) = some (.searching, 0, 0, false) := by decide

/-- V-F1: a valid frame with flags 0xA0. -/
theorem test_frame :
    (does (.frame f1 0xB0) State.reset).map (fun t => (t.reg, t.checksumValid, t.fc)) =
      some ({ vparam := 200000, v := 0, iparam := 16000, i := 60000, pparam := 5000000, p := 0, pf := 16, pfdata := 1 }, true, true) := by
  decide +kernel

/-- V-F9: a frame whose checksum is 0x55 never completes. -/
theorem test_frame_marker_checksum : seqOf (does (.frame f7 0x55) State.reset) = some (.headerMatched, 1, 0x55, false) := by decide +kernel

/-! ## The update -/

/-- V-E5: the parameter registers and `pf` load with every gate clear. -/
theorem test_upd_vparam : (does .updVparam (overG 0x0F)).map (fun t => t.reg) = some { x1 with vparam := 1000 } := by decide

/-- V-E5. -/
theorem test_upd_iparam : (does .updIparam (overG 0x0F)).map (fun t => t.reg) = some { x1 with iparam := 3000 } := by decide

/-- V-E5. -/
theorem test_upd_pparam : (does .updPparam (overG 0x0F)).map (fun t => t.reg) = some { x1 with pparam := 5000 } := by decide

/-- V-E5. -/
theorem test_upd_pf : (does .updPf (overG 0x0F)).map (fun t => t.reg) = some { x1 with pf := 7 } := by decide

/-- V-E2 and V-E6. -/
theorem test_upd_v :
    (does .updV (overG 0x40)).map (fun t => t.reg) = some { x1 with v := 2000 } ∧
    (does .updV (overG 0x30)).map (fun t => t.reg) = some x1 := by decide

/-- V-E3 and V-E4. -/
theorem test_upd_i :
    (does .updI (overG 0x20)).map (fun t => t.reg) = some { x1 with i := 4000 } ∧
    (does .updI (overG 0x10)).map (fun t => t.reg) = some x1 := by decide

/-- V-E4 and V-E3. -/
theorem test_upd_p :
    (does .updP (overG 0x10)).map (fun t => t.reg) = some { x1 with p := 6000 } ∧
    (does .updP (overG 0x20)).map (fun t => t.reg) = some x1 := by decide

/-- V-E1 and V-E5. -/
theorem test_upd_pfdata :
    (does .updPfdata (overG 0x80)).map (fun t => t.reg) = some { x1 with pfdata := 1 } ∧
    (does .updPfdata (overG 0x0F)).map (fun t => t.reg) = some x1 := by decide

/-- V-E10: the counter of two bits wraps. -/
theorem test_upd_pfdata_wraps :
    (does .updPfdata { overG 0x80 with cfg := { Config.standard with pfdataW := 2 }, reg := { x1 with pfdata := 3 } }).map
      (fun t => t.reg.pfdata) = some 0 := by decide

/-! ## The reads -/

/-- Rule R133, examples. -/
theorem test_chk :
    (does .chk { beforeLast with buf := bufFrom 0 (f0Bytes ++ [0x1D]) }).map (fun t => t.sampled) = some (some (.flag true)) ∧
    (does .chk { beforeLast with buf := bufFrom 0 (f0Bytes ++ [0x1C]) }).map (fun t => t.sampled) = some (some (.flag false)) := by
  decide

/-- X1. -/
theorem test_get_v :
    bitsRead .binary64 (does .getV (regsAt .binary64 x1)) = some 0x4059B3C8FF1F4E1D ∧
    bitsRead .binary32 (does .getV (regsAt .binary32 x1)) = some 0x42CD9E48 := by decide +kernel

/-- X1. -/
theorem test_get_i :
    bitsRead .binary64 (does .getI (regsAt .binary64 x1)) = some 0x3FD25D6ABC48E980 ∧
    bitsRead .binary32 (does .getI (regsAt .binary32 x1)) = some 0x3E92EB56 := by decide +kernel

/-- X1. -/
theorem test_get_p :
    bitsRead .binary64 (does .getP (regsAt .binary64 x1)) = some 0x4017AF8F0D04E462 ∧
    bitsRead .binary32 (does .getP (regsAt .binary32 x1)) = some 0x40BD7C78 := by decide +kernel

/-- X1. -/
theorem test_get_s :
    bitsRead .binary64 (does .getS (regsAt .binary64 x1)) = some 0x403D805294D751DC ∧
    bitsRead .binary32 (does .getS (regsAt .binary32 x1)) = some 0x41EC0295 := by decide +kernel

/-- X1, and V-K18: other parameters, where the last bit differs. -/
theorem test_get_pf :
    bitsRead .binary64 (does .getPf (regsAt .binary64 x1)) = some 0x3FC9B1238613391B ∧
    bitsRead .binary64 (does .getPf { regsAt .binary64 x1 with
      cfg := { Config.standard with voltageR1 := ⟨1000000, 1⟩, currentShuntR := ⟨2, 1000⟩ } }) = some 0x3FC9B1238613391C := by
  decide +kernel

/-- V-K4: the one inexact conversion. -/
theorem test_get_e :
    bitsRead .binary64 (does .getE (regsAt .binary64 { x1 with pfdata := 300, pf := 1 })) = some 0x4055667798184BBC ∧
    bitsRead .binary32 (does .getE (regsAt .binary32 { x1 with pfdata := 300, pf := 1 })) = some 0x42AB33BC := by decide +kernel

/-- V-K7: +Inf, not NaN, when only the denominator is 0. -/
theorem test_get_e_infinite :
    (does .getE (regsAt .binary64 { x1 with v := 0 })).map (fun t => t.sampled) = some (some (.quantity (.inf false))) := by decide +kernel

/-! ## Witnesses: states and operands that meet the hypotheses of the statements -/

theorem test_witness_ResetAndConstructReachTheResetState : beforeLast.cfg.legal = true := by decide

theorem test_witness_IllegalParametersAreRefused :
    badBlock.cfg.legal = false ∧ { Config.standard with pfdataW := 0 }.legal = false ∧
    { Config.standard with voltageR1 := ⟨-1, 1⟩ }.legal = false ∧ { Config.standard with currentShuntR := ⟨1, 0⟩ }.legal = false := by
  decide

theorem test_witness_NothingSurvivesReset : beforeLast.SameOutside State.reset ∧ beforeLast ≠ State.reset := by decide

/-- One state for each clause, at the ends of the index's range. -/
theorem test_witness_PushPerformsTheCaseTheOrderedTestsSelect :
    ((0x5A : Byte) ≠ 0x55 ∧ (seqAt .headerMatched 1 0 []).st = .headerMatched) ∧
    ((seqAt .accumulating 2 0 []).st = .accumulating ∧ (seqAt .accumulating 2 0 []).idx.toNat = 2) ∧
    (seqAt .accumulating 22 0 []).idx.toNat = 22 ∧ (seqAt .accumulating 23 0 []).idx.toNat = 23 ∧
    ¬((seqAt .accumulating 24 0 []).st = .headerMatched ∧ (0x5A : Byte) = 0x5A) ∧
    ¬((seqAt .accumulating 24 0 []).st = .accumulating ∧ 2 ≤ (seqAt .accumulating 24 0 []).idx.toNat ∧
      (seqAt .accumulating 24 0 []).idx.toNat ≤ 23) ∧
    (seqAt .accumulating 3 0x10 [(2, 0x10)]).st = (seqAt .accumulating 3 0 []).st := by decide

theorem test_witness_PushCheckBeginsThePayload : (seqAt .headerMatched 1 0 []).st = .headerMatched := by decide

theorem test_witness_PushStoreStoresAndSums :
    (0x5A : Byte) ≠ 0x55 ∧ (seqAt .accumulating 2 0 []).st = .accumulating ∧ 2 ≤ (seqAt .accumulating 2 0 []).idx.toNat ∧
    (seqAt .accumulating 2 0 []).idx.toNat ≤ 22 ∧ (seqAt .accumulating 22 0 []).idx.toNat ≤ 22 := by decide

/-- Both outcomes of the comparison. -/
theorem test_witness_PushLastComparesAndCompletes :
    (0x1D : Byte) ≠ 0x55 ∧ beforeLast.st = .accumulating ∧ beforeLast.idx.toNat = 23 ∧ beforeLast.acc = 0x1D ∧
    beforeLast.acc ≠ 0x1C ∧ beforeLast.SequencerInv := by decide

theorem test_witness_PushDropDiscardsTheByte :
    (0x5A : Byte) ≠ 0x55 ∧ ¬(State.reset.st = .headerMatched ∧ (0x5A : Byte) = 0x5A) ∧
    ¬(State.reset.st = .accumulating ∧ 2 ≤ State.reset.idx.toNat ∧ State.reset.idx.toNat ≤ 23) ∧
    ¬((seqAt .headerMatched 1 0 []).st = .headerMatched ∧ (0x12 : Byte) = 0x5A) ∧
    ¬(2 ≤ (seqAt .accumulating 1 0 []).idx.toNat) ∧ ¬((seqAt .accumulating 24 0 []).idx.toNat ≤ 23) := by decide

theorem test_witness_ResynchronisationsNestTrivially :
    State.reset.st = .searching ∧ (∀ b ∈ ([0x5A, 0x00] : List Byte), b ≠ 0x55) ∧ ([0x5A, 0x00] : List Byte) ≠ [] := by decide

theorem test_witness_IdleChangesNothing : State.reset.cfg.legal = true ∧ State.reset.pending = [] := by decide

theorem test_witness_FrameIsItsTwentyFourPushes : State.reset.cfg.legal = true := by decide

theorem test_witness_WellFormedValidFrameAlwaysDecodes : WellFormedFrame f0 f0.cksum ∧ WellFormedFrame f1 f1.cksum := by decide

theorem test_witness_ChecksumFailureCompletesWithoutUpdate : WellFormedFrame f1 0xB1 ∧ 0xB1 ≠ f1.cksum := by decide

/-- A marker in a field (F5), and as the checksum (F7). -/
theorem test_witness_FrameWithMarkerInPayloadIsLost : ¬WellFormedFrame f5 f5.cksum ∧ ¬WellFormedFrame f7 f7.cksum := by decide

theorem test_witness_FrameCompleteExactlyAfterTwentyFourBytes :
    State.reset.st = .searching ∧ f0.bytes 0x1D = [] ++ 0x55 :: 0x5A :: (f0.payload ++ [0x1D]) ∧
    (f0.payload ++ [0x1D]).length = 22 ∧ ∀ b ∈ f0.payload ++ [(0x1D : Byte)], b ≠ 0x55 := by decide

theorem test_witness_ResetStateHasTheInvariants : Config.standard.legal = true := by decide

/-- A state in mid-frame, and the step that takes the checksum byte. -/
theorem test_witness_EveryStepKeepsTheInvariants :
    (beforeLast.present (.command 0b001 0x1D)).Inv ∧
    (after (step (beforeLast.present (.command 0b001 0x1D)))).isSome = true := by decide

theorem test_witness_ReachableStatesHaveTheSequencerInvariants : (Config.withFormat .binary32).legal = true := by decide

theorem test_witness_EveryOperationHasASuccessor : beforeLast.cfg.legal = true := by decide

theorem test_witness_CoefficientsNeverChange :
    exec .updV (overG 0x40) = .next ((overG 0x40).setReg { x1 with v := (overG 0x40).nextV }) ∧
    step State.reset = .next State.reset := ⟨rfl, rfl⟩

theorem test_witness_EveryOperationKeepsTheBufferCanonical :
    beforeLast.buf.wf = true ∧ exec (.push 0x1D) beforeLast = .next (beforeLast.push 0x1D) := ⟨by decide, rfl⟩

/-- Each of the four ways in which a register changes. -/
theorem test_witness_RegistersChangeOnlyByValidFrameOrReset :
    (after (step ({ beforeLast with reg := x1 }.present (.command 0b100 0)))).map (fun t => t.reg) = some Regs.zero ∧
    (after (step ({ beforeLast with reg := x1 }.present (.command 0b010 0)))).map (fun t => t.reg) = some Regs.zero ∧
    (after (step (beforeLast.present (.command 0b001 0x1D)))).map (fun t => t.reg) = some x1 ∧
    (after (step (State.reset.present (.frame f0 0x1D)))).map (fun t => t.reg) = some x1 ∧ Regs.zero ≠ x1 := by decide +kernel

theorem test_witness_InternalCheckAgreesWithChk :
    beforeLast.Inv ∧ (0x1C : Byte) ≠ 0x55 ∧ beforeLast.st = .accumulating ∧ beforeLast.idx.toNat = 23 ∧
    (does (.pushLast 0x1C) beforeLast).isSome = true ∧ (does (.pushLast 0x1D) beforeLast).isSome = true := by decide

theorem test_witness_VerdictLastsUntilTheNextPayloadByte :
    (does .idle beforeLast).isSome = true ∧ (does .pushSync beforeLast).isSome = true ∧
    ((seqAt .headerMatched 1 0 []).st = .headerMatched ∧ (does .pushCheck (seqAt .headerMatched 1 0 [])).isSome = true) ∧
    (State.reset.st ≠ .accumulating ∧ (does (.push 0x12) State.reset).isSome = true) ∧
    (does (ReadPort.toInstr .checksumValid) beforeLast).isSome = true ∧ (does (UpdLane.toInstr .v) beforeLast).isSome = true := by
  decide

/-- At both ends of the range of bytes: a summed byte and the checksum byte. -/
theorem test_witness_EverySingleByteErrorIsDetected :
    State.reset.checksumValid = true ∧
    (seqAt .searching 0 0 [(2, 1)]).buf.read 2 ≠ State.reset.buf.read 2 ∧
    (seqAt .searching 0 0 [(23, 1)]).buf.read 23 ≠ State.reset.buf.read 23 ∧
    ∀ a, a ≠ 2 → (seqAt .searching 0 0 [(2, 1)]).buf.read a = State.reset.buf.read a :=
  ⟨by decide, by decide, by decide, fun a h => by
    show Memory.read [(2, 1)] a = Memory.read [] a
    rw [Memory.read_cons, if_neg (Ne.symm h)]⟩

/-- Both values of each gate. -/
theorem test_witness_GatedLoadsFollowTheirFlag :
    ((overG 0x70).buf.read 20).getLsbD 6 = true ∧ ((overG 0x70).buf.read 20).getLsbD 5 = true ∧
    ((overG 0x70).buf.read 20).getLsbD 4 = true ∧ ((overG 0x0F).buf.read 20).getLsbD 6 = false ∧
    ((overG 0x0F).buf.read 20).getLsbD 5 = false ∧ ((overG 0x0F).buf.read 20).getLsbD 4 = false := by decide

/-- Below the last value of a counter of two bits, and at it. -/
theorem test_witness_OverflowCountAddsOnePerFlaggedUpdate :
    ((overG 0x80).buf.read 20).getLsbD 7 = true ∧ ((overG 0x7F).buf.read 20).getLsbD 7 = false ∧ 2 < 2 ^ 2 - 1 ∧ ¬(3 < 2 ^ 2 - 1) ∧
    (overG 0x80).reg.pfdata < 2 ^ (overG 0x80).cfg.pfdataW - 1 := by decide

theorem test_witness_UpdateOrderDoesNotMatter :
    [UpdLane.pfdata, .pf, .p, .pparam, .i, .iparam, .v, .vparam].Perm [.vparam, .v, .iparam, .i, .pparam, .p, .pf, .pfdata] := by decide

theorem test_witness_LowFlagBitsHaveNoEffect : (0x71 : Byte) >>> 4 = 0x7E >>> 4 ∧ (0x71 : Byte) ≠ 0x7E := by decide

theorem test_witness_DecodeOfEncodeIsTheOperation : WellFormed (.frame f0 0x1C) ∧ WellFormed (.pushStore 0x5A) := by decide

/-- A command word for each clause. -/
theorem test_witness_CommandPriorityIsResetThenSoftResetThenPush :
    State.reset.cfg.legal = true ∧ (0b111 : BitVec 3).getLsbD 2 = true ∧
    ((0b011 : BitVec 3).getLsbD 2 = false ∧ (0b011 : BitVec 3).getLsbD 1 = true) ∧
    ((0b001 : BitVec 3).getLsbD 2 = false ∧ (0b001 : BitVec 3).getLsbD 1 = false ∧ (0b001 : BitVec 3).getLsbD 0 = true) ∧
    ((0b000 : BitVec 3).getLsbD 2 = false ∧ (0b000 : BitVec 3).getLsbD 1 = false ∧ (0b000 : BitVec 3).getLsbD 0 = false) := by decide

theorem test_witness_FrameWordIsItsBytesInArrivalOrder : 0 < 24 ∧ 23 < 24 := by decide

theorem test_witness_StepRunsTheDecodedOperation : beforeLast.cfg.legal = true ∧ beforeLast.pending = [] := by decide

/-- V-K1, V-K5, V-K7 and V-K8: zeros in the registers of a block whose coefficients are positive. -/
theorem test_witness_GetVAndGetIReturn :
    (vc Config.standard).isPositiveFinite = true ∧ (cc Config.standard).isPositiveFinite = true ∧
    (Regs.zero.v = 0 ∧ Regs.zero.vparam = 0 ∧ Regs.zero.i = 0 ∧ Regs.zero.iparam = 0) ∧
    ({ x1 with v := 0 }.v = 0 ∧ { x1 with v := 0 }.vparam ≠ 0 ∧ { x1 with i := 0 }.i = 0 ∧ { x1 with i := 0 }.iparam ≠ 0) ∧
    ({ x1 with vparam := 0 }.v ≠ 0 ∧ { x1 with vparam := 0 }.vparam = 0 ∧ { x1 with iparam := 0 }.i ≠ 0 ∧
      { x1 with iparam := 0 }.iparam = 0) := by decide +kernel

/-- V-K6 and V-K9. -/
theorem test_witness_GetPReturnsActivePower :
    (vc Config.standard).isPositiveFinite = true ∧ (cc Config.standard).isPositiveFinite = true ∧
    (Regs.zero.p = 0 ∧ Regs.zero.pparam = 0) ∧ ({ x1 with p := 0 }.p = 0 ∧ { x1 with p := 0 }.pparam ≠ 0) ∧
    ({ x1 with pparam := 0 }.p ≠ 0 ∧ { x1 with pparam := 0 }.pparam = 0) ∧
    ({ x1 with v := 0 }.pparam = x1.pparam ∧ { x1 with v := 0 }.p = x1.p) := by decide +kernel

/-- V-K1, V-K10, V-K7 and V-K5: each corner of the product. -/
theorem test_witness_GetSReturnsApparentPower :
    effectiveVoltage Config.standard Regs.zero = .nan ∧
    (effectiveVoltage Config.standard { x1 with v := 0, iparam := 0 } = .inf false ∧
      effectiveCurrent Config.standard { x1 with v := 0, iparam := 0 } = Fp.zero false) ∧
    (effectiveVoltage Config.standard { x1 with v := 0 } = .inf false ∧
      (effectiveCurrent Config.standard { x1 with v := 0 }).isPositive = true) ∧
    (effectiveVoltage Config.standard { x1 with vparam := 0 } = Fp.zero false ∧
      (effectiveCurrent Config.standard { x1 with vparam := 0 }).isFiniteNonneg = true) := by decide +kernel

/-- V-K1, V-K15, V-K5 and V-K7: each corner of the quotient. -/
theorem test_witness_GetPfReturnsPowerFactor :
    activePower Config.standard Regs.zero = .nan ∧
    (activePower Config.standard { x1 with v := 0, i := 0, p := 0 } = .inf false ∧
      apparentPower Config.standard { x1 with v := 0, i := 0, p := 0 } = .inf false) ∧
    (apparentPower Config.standard { x1 with vparam := 0 } = Fp.zero false ∧
      (activePower Config.standard { x1 with vparam := 0 }).isPositive = true) ∧
    (apparentPower Config.standard { x1 with v := 0 } = .inf false ∧
      (activePower Config.standard { x1 with v := 0 }).isFiniteNonneg = true) ∧
    (activePower Config.standard { x1 with pparam := 0, vparam := 0 } = Fp.zero false ∧
      apparentPower Config.standard { x1 with pparam := 0, vparam := 0 } = Fp.zero false) := by decide +kernel

/-- V-K1, V-K13, V-K5, V-K7, V-K12 and V-K6: a state for each row of the table of rule R175. -/
theorem test_witness_GetEReturnsAccumulatedEnergy :
    apparentPower Config.standard Regs.zero = .nan ∧
    ({ x1 with pparam := 0, v := 0 }.pparam = 0 ∧ apparentPower Config.standard { x1 with pparam := 0, v := 0 } = .inf false) ∧
    (fcvt .binary64 (x1.pfdata * 65536 + x1.pf.toNat)).isFiniteNonneg = true ∧
    (x1.pparam ≠ 0 ∧ apparentPower Config.standard { x1 with vparam := 0 } = Fp.zero false) ∧
    (apparentPower Config.standard { x1 with v := 0 } = .inf false ∧ x1.pfdata * 65536 + x1.pf.toNat ≠ 0) ∧
    { x1 with pf := 0 }.pfdata * 65536 + { x1 with pf := 0 }.pf.toNat = 0 ∧
    (apparentPower Config.standard { x1 with pparam := 0 }).isFiniteNonneg = true := by decide +kernel

theorem test_witness_ReadsAreRepeatableAndChangeNothing :
    exec (ReadPort.toInstr .checksumValid) beforeLast = .next (beforeLast.sample (.flag beforeLast.checksumValid)) := rfl

theorem test_witness_SpecialOperandsFollowTheTable :
    (fcvt .binary32 1).isPositiveFinite = true ∧ (Fp.zero false).isFiniteNonneg = true ∧ (Fp.inf false).isPositive = true := by
  decide +kernel

/-- A divisor that is not 0; and the first integer that binary32 rounds, 2^24 + 1, half-way between 2^24 and 2^24 + 2, goes to the even
significand (rule R162). -/
theorem test_witness_QuotientsAndProductsRoundToNearestEven :
    0 < 0xC00000 ∧ Fp.bits .binary32 (fcvt .binary32 16777217) = some 0x4B800000 := by decide +kernel

/-- The parameters of V-K18. -/
theorem test_witness_ConstantsHaveTheSpecsEncodings :
    { Config.standard with voltageR1 := ⟨1000000, 1⟩, currentShuntR := ⟨2, 1000⟩ }.legal = true := by decide

theorem test_witness_ConversionOfRegistersIsExact : 16777215 < 2 ^ 24 ∧ 0 < 2 ^ 24 := by decide

theorem test_witness_NoQuantityIsNegative : (Config.withFormat .binary32).legal = true ∧ Config.standard.legal = true := by decide

theorem test_witness_QuantitiesAreRepresentable :
    (Fp.inf false).canonical .binary64 = true ∧ (Fp.zero false).canonical .binary64 = true ∧
    Fp.encoding .binary64 .nan = Fp.encoding .binary64 .nan := ⟨rfl, by decide +kernel, rfl⟩

theorem test_witness_ExampleReadingsHaveTheGivenEncodings :
    (regsAt .binary64 x1).reg = x1 ∧ (regsAt .binary64 x1).cfg = Config.withFormat .binary64 ∧
    (regsAt .binary32 x1).cfg = Config.withFormat .binary32 := by decide

end Sys2Proof.Tests
end

section
/-! SUPPORT. The scope rules of 00_scope.md: what the coming step runs (R11), that nothing is stuck (R15), and that nothing writes the
parameters (R7, R12). -/
namespace Sys2Proof.Machine

variable (s : State)

/-! ### The operation of the coming step -/

theorem step_of_nothing_presented (hl : s.cfg.legal = true) (hp : s.pending = []) : step s = exec .idle s := by
  rw [step_of_legal s hl, State.fetch_nil s hp]

theorem step_of_presented {w : HostWord} {rest : List HostWord} (hl : s.cfg.legal = true) (hp : s.pending = w :: rest) :
    step s = exec (decodeHost w) { s with pending := rest } := by
  rw [step_of_legal s hl, State.fetch_cons s hp]

@[simp] theorem State.fetch_cfg : s.fetch.2.cfg = s.cfg := by
  cases hp : s.pending with
  | nil => rw [State.fetch_nil s hp]
  | cons w rest => rw [State.fetch_cons s hp]

/-! ### No operation is stuck -/

theorem exec_construct_of_legal (hl : s.cfg.legal = true) : exec .construct s = .next s.clear := if_pos hl

/-- `CONSTRUCT` alone has a guard, the legality of the parameters (rule R190, U4); every other operation answers a next state
outright. -/
theorem exec_has_successor (hl : s.cfg.legal = true) (i : Instr) : ∃ t, exec i s = .next t := by
  cases i
  case construct => exact ⟨s.clear, exec_construct_of_legal s hl⟩
  all_goals exact ⟨_, rfl⟩

theorem step_has_successor (hl : s.cfg.legal = true) : ∃ t, step s = .next t := by
  rw [step_of_legal s hl]
  exact exec_has_successor s.fetch.2 (by rw [State.fetch_cfg, hl]) s.fetch.1

/-! ### Nothing writes the parameters -/

theorem exec_next_cfg {i : Instr} {t : State} (h : exec i s = .next t) : t.cfg = s.cfg := by
  obtain ⟨_, rfl⟩ | ⟨bs, _, rfl⟩ | ⟨_, _, r, rfl, _⟩ | ⟨_, _, x, rfl⟩ | ⟨_, rfl⟩ := exec_next_cases s h
  · exact s.clear_cfg
  · exact s.pushAll_cfg bs
  · exact s.setReg_cfg r
  · exact s.sample_cfg x
  · rfl

theorem step_next_cfg {t : State} (h : step s = .next t) : t.cfg = s.cfg := by
  obtain ⟨_, hx⟩ := (step_eq_next s).mp h
  rw [exec_next_cfg s.fetch.2 hx, State.fetch_cfg]

/-! ### The obligations -/

/-- Settles O22: the legality premise is what the guard of `CONSTRUCT` and that of the step ask for. -/
theorem everyOperationHasASuccessor : Obligations.EveryOperationHasASuccessor :=
  fun s hl => ⟨exec_has_successor s hl, step_has_successor s hl⟩

/-- Settles O23: the coefficients are functions of the parameters, which nothing writes. -/
theorem coefficientsNeverChange : Obligations.CoefficientsNeverChange := by
  unfold Obligations.CoefficientsNeverChange
  refine ⟨fun i s t h => ?_, fun s t h => step_next_cfg s h⟩
  have hc : t.cfg = s.cfg := exec_next_cfg s h
  exact ⟨hc, congrArg vc hc, congrArg cc hc⟩

/-- Settles O41, from the two cases of the fetch. -/
theorem stepRunsTheDecodedOperation : Obligations.StepRunsTheDecodedOperation :=
  fun s hl => ⟨step_of_nothing_presented s hl, fun w rest => step_of_presented { s with pending := w :: rest } hl rfl⟩

end Sys2Proof.Machine
end

section
/-! SUPPORT. The state of 10_state.md: the reset state (R49), the invariants of R47 as what every operation keeps, and their meaning
at `PUSH.LAST` (R48). -/
namespace Sys2Proof.Machine

variable (s : State)

/-! ### The resets -/

theorem exec_eq_clear {i : Instr} (h : i = .reset ∨ i = .construct ∧ s.cfg.legal = true) : exec i s = .next s.clear := by
  obtain rfl | ⟨rfl, hl⟩ := h
  · rfl
  · exact exec_construct_of_legal s hl

/-! ### The sequencer's invariants, case by case of PUSH -/

variable {s}

/-- In Searching, where every frame ends and every resynchronisation leads, R47 asks for nothing but the empty sequencer. -/
theorem State.sequencerInv_of_searching (hst : s.st = .searching) (hidx : s.idx = 0) (hacc : s.acc = 0) : s.SequencerInv := by
  refine ⟨fun _ => ⟨hidx, hacc⟩, fun h => ?_, fun h => ?_, fun _ => hst⟩ <;> cases hst.symm.trans h

theorem State.sequencerInv_pushSync : s.pushSync.SequencerInv :=
  ⟨nofun, fun _ => ⟨rfl, by simp⟩, nofun, nofun⟩

theorem State.sequencerInv_pushCheck (h0 : s.buf.read 0 = stateMarker) : s.pushCheck.SequencerInv := by
  refine ⟨nofun, nofun, fun _ => ?_, nofun⟩
  have hlow : ∀ k, k < 2 → 2 ≤ k → (s.pushCheck.buf).read k ≠ stateMarker := by omega
  simpa [Memory.read_write_other, h0] using hlow

/-- The stored byte lengthens the summed part of the buffer by one and touches no byte before it. -/
theorem State.sequencerInv_pushStore (h : s.AccumulatingInv) (hst : s.st = .accumulating) (h22 : s.idx.toNat ≤ 22) {b : Byte}
    (hb : b ≠ stateMarker) : (s.pushStore b).SequencerInv := by
  obtain ⟨h2, -, h0, h1, hacc, hpay⟩ := h hst
  have hidx : (s.pushStore b).idx.toNat = s.idx.toNat + 1 := by simp [BitVec.toNat_add]; omega
  have hold : ∀ k, k < s.idx.toNat → (s.pushStore b).buf.read k = s.buf.read k := fun k hk =>
    Memory.read_write_other _ _ (by omega)
  have hnew : (s.pushStore b).buf.read s.idx.toNat = b := Memory.read_write_same _ _ _
  have hsum : sumBytes (s.pushStore b).buf 2 (s.idx.toNat - 2) = s.acc := by
    rw [hacc]
    exact sumBytes_congr fun j hj => hold _ (by omega)
  refine ⟨by simp [hst], by simp [hst], fun _ => ?_, nofun⟩
  rw [hidx]
  refine ⟨by omega, by omega, (hold 0 (by omega)).trans h0, (hold 1 (by omega)).trans h1, ?_, fun k hk hk2 => ?_⟩
  · rw [show s.idx.toNat + 1 - 2 = s.idx.toNat - 2 + 1 by omega, sumBytes_succ, hsum,
      show 2 + (s.idx.toNat - 2) = s.idx.toNat by omega, hnew, State.pushStore_acc]
  · obtain hlt | rfl : k < s.idx.toNat ∨ k = s.idx.toNat := by omega
    · rw [hold k hlt]
      exact hpay k hlt hk2
    · rwa [hnew]

theorem State.sequencerInv_push (h : s.SequencerInv) (b : Byte) : (s.push b).SequencerInv := by
  obtain ⟨-, hheader, haccum, -⟩ := h
  obtain ⟨-, hp⟩ | ⟨hst, -, hp⟩ | ⟨hb, hst, -, h22, hp⟩ | ⟨-, -, -, hp⟩ | ⟨-, -, -, hp⟩ := s.push_cases b <;> rw [hp]
  · exact State.sequencerInv_pushSync
  · exact State.sequencerInv_pushCheck (hheader hst).2
  · exact State.sequencerInv_pushStore haccum hst h22 hb
  · exact State.sequencerInv_of_searching rfl rfl rfl
  · exact State.sequencerInv_of_searching rfl rfl rfl

/-! ### The buffer's canonical form and the counter's width -/

theorem State.wf_buf_push (h : s.buf.wf = true) (b : Byte) : (s.push b).buf.wf = true := by
  obtain ⟨-, hp⟩ | ⟨-, -, hp⟩ | ⟨-, -, -, h22, hp⟩ | ⟨-, -, -, hp⟩ | ⟨-, -, -, hp⟩ := s.push_cases b <;> rw [hp]
  · exact Memory.wf_write h stateMarker (by decide : 0 < frameLen)
  · exact Memory.wf_write h checkMarker (by decide : 1 < frameLen)
  · exact Memory.wf_write h _ (Nat.lt_of_le_of_lt h22 (by decide))
  · rw [State.pushLast_buf]
    exact Memory.wf_write h _ (by decide)
  · exact h

/-- Only the update in `PUSH.LAST` writes a register, and only where the accumulator is the received byte (rules R23, R104). -/
theorem State.push_reg_cases (s : State) (b : Byte) :
    (s.push b).reg = s.reg ∨
    (b ≠ stateMarker ∧ s.st = .accumulating ∧ s.idx.toNat = 23 ∧ s.acc = b ∧ (s.push b).reg = (s.store 23 b).update.reg) := by
  obtain ⟨-, hp⟩ | ⟨-, -, hp⟩ | ⟨-, -, -, -, hp⟩ | ⟨hb, hst, h23, hp⟩ | ⟨-, -, -, hp⟩ := s.push_cases b <;> rw [hp]
  · exact .inl rfl
  · exact .inl rfl
  · exact .inl rfl
  · rw [State.pushLast_reg]
    by_cases hacc : s.acc = b
    · exact .inr ⟨hb, hst, h23, hacc, if_pos hacc⟩
    · exact .inl (if_neg hacc)
  · exact .inl rfl

theorem State.pfdata_lt_push (h : s.reg.pfdata < 2 ^ s.cfg.pfdataW) (b : Byte) :
    (s.push b).reg.pfdata < 2 ^ s.cfg.pfdataW := by
  obtain hr | ⟨-, -, -, -, hr⟩ := s.push_reg_cases b <;> rw [hr]
  · exact h
  · exact State.update_pfdata_lt (s.store 23 b) h

theorem State.nextPfdata_lt (h : s.reg.pfdata < 2 ^ s.cfg.pfdataW) : s.nextPfdata < 2 ^ s.cfg.pfdataW :=
  State.update_pfdata_lt s h

/-! ### Every operation and every step keeps the invariants -/

theorem State.inv_clear (hl : s.cfg.legal = true) : s.clear.Inv :=
  ⟨State.sequencerInv_of_searching rfl rfl rfl, rfl, Nat.two_pow_pos _, hl⟩

/-- The reset state is one that a reset leaves as it is. -/
theorem State.inv_resetOf {c : Config} (hl : c.legal = true) : (State.resetOf c).Inv :=
  State.inv_clear (s := State.resetOf c) hl

theorem State.inv_push (h : s.Inv) (b : Byte) : (s.push b).Inv := by
  obtain ⟨hseq, hwf, hlt, hl⟩ := h
  refine ⟨State.sequencerInv_push hseq b, State.wf_buf_push hwf b, ?_, ?_⟩ <;> rw [State.push_cfg]
  · exact State.pfdata_lt_push hlt b
  · exact hl

theorem State.inv_pushAll (h : s.Inv) (bs : List Byte) : (s.pushAll bs).Inv := by
  induction bs generalizing s with
  | nil => exact h
  | cons b bs ih => exact ih (State.inv_push h b)

theorem State.inv_setReg (h : s.Inv) {r : Regs} (hr : r.pfdata < 2 ^ s.cfg.pfdataW) : (s.setReg r).Inv := by
  obtain ⟨hseq, hwf, -, hl⟩ := h
  exact ⟨hseq, hwf, hr, hl⟩

theorem exec_next_inv {i : Instr} {t : State} (h : s.Inv) (hx : exec i s = .next t) : t.Inv := by
  have ⟨_, _, hlt, hl⟩ := h
  obtain ⟨-, rfl⟩ | ⟨bs, -, rfl⟩ | ⟨_, -, r, rfl, hr⟩ | ⟨_, -, x, rfl⟩ | ⟨-, rfl⟩ := exec_next_cases s hx
  · exact State.inv_clear hl
  · exact State.inv_pushAll h bs
  · refine State.inv_setReg h ?_
    obtain hr | hr := hr <;> rw [hr]
    · exact hlt
    · exact State.nextPfdata_lt hlt
  · exact h
  · exact h

theorem State.inv_fetch (h : s.Inv) : s.fetch.2.Inv := by
  cases hp : s.pending with
  | nil => rwa [State.fetch_nil s hp]
  | cons w rest =>
    rw [State.fetch_cons s hp]
    exact h

theorem step_next_inv {t : State} (h : s.Inv) (hs : step s = .next t) : t.Inv :=
  exec_next_inv (State.inv_fetch h) ((step_eq_next s).mp hs).2

theorem run_succ_of_step {M : Host.Core} {s t : M.State} (hs : M.step s = .next t) (n : Nat) :
    M.run (n + 1) s = M.run n t := by
  rw [Host.Core.run, hs]

/-- The induction over a run, once: a block with the invariants is never stuck and keeps them. -/
theorem run_inv (h : s.Inv) (n : Nat) : ∃ t : State, Host.Core.run core n s = .next t ∧ t.Inv := by
  induction n generalizing s with
  | zero => exact ⟨s, rfl, h⟩
  | succ n ih =>
    have ⟨_, _, _, hl⟩ := h
    obtain ⟨u, hu⟩ := step_has_successor s hl
    obtain ⟨t, hrun, ht⟩ := ih (step_next_inv h hu)
    exact ⟨t, (run_succ_of_step (M := core) hu n).trans hrun, ht⟩

/-! ### The verdict of `PUSH.LAST` -/

theorem cksum_write_checksumByte (m : Memory) (b : Byte) : cksum (m.write 23 b) = cksum m :=
  sumBytes_congr fun j hj => Memory.read_write_other m b (by omega)

theorem State.acc_eq_cksum (h : s.SequencerInv) (hst : s.st = .accumulating) (h23 : s.idx.toNat = 23) : s.acc = cksum s.buf := by
  obtain ⟨-, -, haccum, -⟩ := h
  obtain ⟨-, -, -, -, hacc, -⟩ := haccum hst
  rw [hacc, h23, cksum]

theorem State.pushLast_checksumValid (b : Byte) : (s.pushLast b).checksumValid = decide (cksum s.buf = b) := by
  simp [State.checksumValid, fieldChecksum, cksum_write_checksumByte, beq_eq_decide]

/-! ### The obligations -/

/-- Settles O20: the step is an operation on a state that differs in what the host presents only. -/
theorem everyStepKeepsTheInvariants : Obligations.EveryStepKeepsTheInvariants :=
  fun _ _ => step_next_inv

/-- Settles O21, by the induction over the run with all of `Inv` as its invariant. -/
theorem reachableStatesHaveTheSequencerInvariants : Obligations.ReachableStatesHaveTheSequencerInvariants := by
  intro c ops n hl
  obtain ⟨t, hrun, hseq, -⟩ := run_inv (s := { State.resetOf c with pending := ops }) (State.inv_resetOf hl) n
  exact ⟨t, hrun, hseq⟩

/-- Settles O27: at `idx` 23 the accumulator of R47 is the sum of bytes 2 to 22, none of which is the byte that is stored. -/
theorem internalCheckAgreesWithChk : Obligations.InternalCheckAgreesWithChk := by
  rintro b s t ⟨hseq, -⟩ hb hst h23 hx
  have hpush : s.push b = s.pushLast b := s.push_of_last (s.pushCase_eq_last.mpr ⟨hb, hst, h23⟩)
  have hacc : s.acc = cksum s.buf := State.acc_eq_cksum hseq hst h23
  rw [exec_pushLast, hpush] at hx
  cases hx
  exact ⟨by rw [State.pushLast_buf, cksum_write_checksumByte, hacc], by rw [State.pushLast_checksumValid, hacc]⟩

/-- Settles O1: both resets answer `clear`, whose fields are those of rule R49. -/
theorem resetAndConstructReachTheResetState : Obligations.ResetAndConstructReachTheResetState :=
  fun _ s h => ⟨s.clear, exec_eq_clear s h, rfl, rfl, rfl, Memory.read_nil, rfl, rfl, rfl, rfl, rfl, rfl, rfl⟩

/-- Settles O19; `State.reset` is the reset state of the standard block. -/
theorem resetStateHasTheInvariants : Obligations.ResetStateHasTheInvariants :=
  ⟨fun _ => State.inv_resetOf, State.inv_resetOf (c := Config.standard) (by decide)⟩

end Sys2Proof.Machine
end

section
/-! SUPPORT. The registers' only writers (rule R23): which push can change a register, how many pushes must come before it, and what the
24 pushes of a frame can do to the registers. -/
namespace Sys2Proof.Machine

variable (s : State)

/-! ### How far `PUSH.LAST` is away -/

/-- How many pushes come, at the least, before one that can be `PUSH.LAST`: a whole frame but its checksum byte is 23, less what
the block already has of it. -/
def State.pushesBeforeLast : Nat :=
  match s.st with
  | .searching => 23
  | .headerMatched => 22
  | .accumulating => if 2 ≤ s.idx.toNat ∧ s.idx.toNat ≤ 23 then 23 - s.idx.toNat else 23

theorem State.pushesBeforeLast_of_searching (h : s.st = .searching) : s.pushesBeforeLast = 23 := by
  simp [State.pushesBeforeLast, h]

theorem State.pushesBeforeLast_of_headerMatched (h : s.st = .headerMatched) : s.pushesBeforeLast = 22 := by
  simp [State.pushesBeforeLast, h]

theorem State.pushesBeforeLast_of_accumulating (h : s.st = .accumulating) (h2 : 2 ≤ s.idx.toNat) (h23 : s.idx.toNat ≤ 23) :
    s.pushesBeforeLast = 23 - s.idx.toNat := by
  simp [State.pushesBeforeLast, h, h2, h23]

theorem State.pushesBeforeLast_le : s.pushesBeforeLast ≤ 23 := by
  unfold State.pushesBeforeLast
  split
  · omega
  · omega
  · split <;> omega

/-- No push brings `PUSH.LAST` nearer by more than one. -/
theorem State.pushesBeforeLast_push (b : Byte) : s.pushesBeforeLast ≤ (s.push b).pushesBeforeLast + 1 := by
  have hle := s.pushesBeforeLast_le
  obtain ⟨-, hp⟩ | ⟨hst, -, hp⟩ | ⟨-, hst, h2, h22, hp⟩ | ⟨-, -, -, hp⟩ | ⟨-, -, -, hp⟩ := s.push_cases b <;> rw [hp]
  · rw [s.pushSync.pushesBeforeLast_of_headerMatched rfl]
    omega
  · rw [s.pushesBeforeLast_of_headerMatched hst]
    exact Nat.le_refl _
  · have hidx : (s.pushStore b).idx.toNat = s.idx.toNat + 1 := by simp [BitVec.toNat_add]; omega
    rw [s.pushesBeforeLast_of_accumulating hst h2 (by omega),
      (s.pushStore b).pushesBeforeLast_of_accumulating hst (by omega) (by omega)]
    omega
  · rw [(s.pushLast b).pushesBeforeLast_of_searching rfl]
    omega
  · rw [s.pushDrop.pushesBeforeLast_of_searching rfl]
    omega

/-- Pushes too few to reach `PUSH.LAST` change no register. -/
theorem State.pushAll_reg_of_length_le (bs : List Byte) (h : bs.length ≤ s.pushesBeforeLast) : (s.pushAll bs).reg = s.reg := by
  induction bs generalizing s with
  | nil => rfl
  | cons b bs ih =>
    rw [List.length_cons] at h
    have hnext := s.pushesBeforeLast_push b
    rw [State.pushAll_cons, ih (s.push b) (by omega)]
    obtain hr | ⟨-, hst, h23, -, -⟩ := s.push_reg_cases b
    · exact hr
    · rw [s.pushesBeforeLast_of_accumulating hst (by omega) (by omega)] at h
      omega

/-! ### The registers across a whole frame -/

theorem length_payload (f : FrameArgs) : f.payload.length = 21 := rfl

theorem State.pushAll_bytes (f : FrameArgs) (k : Byte) :
    s.pushAll (f.bytes k) = s.pushSync.pushCheck.pushAll (f.payload ++ [k]) := by
  rw [← s.push_header]
  rfl

/-- A 0x55 after the header restarts the frame, and what is left of the 24 bytes does not complete another (rule R109). -/
theorem State.pushAll_bytes_reg_of_not_wellFormed {f : FrameArgs} {k : Byte} (h : ¬WellFormedFrame f k) :
    (s.pushAll (f.bytes k)).reg = s.reg := by
  have hmem : stateMarker ∈ f.payload ++ [k] := by
    by_contra hno
    exact h fun b hb hbm => hno (hbm ▸ hb)
  have hlen : (f.payload ++ [k]).length = 22 := by simp [length_payload]
  obtain ⟨before, after, hsplit⟩ := List.append_of_mem hmem
  rw [hsplit, List.length_append, List.length_cons] at hlen
  have hpayload : s.pushSync.pushCheck.pushesBeforeLast = 21 := rfl
  rw [s.pushAll_bytes, hsplit, State.pushAll_append, State.pushAll_cons, State.push_of_sync,
    State.pushAll_reg_of_length_le _ after, State.pushSync_reg, State.pushAll_reg_of_length_le _ before]
  · rfl
  · omega
  · rw [State.pushesBeforeLast_of_headerMatched _ rfl]
    omega

/-- A well-formed frame changes a register only if its checksum byte is the sum that R84 computes (rule R203). -/
theorem State.pushAll_bytes_reg_of_wellFormed {f : FrameArgs} {k : Byte} (h : WellFormedFrame f k) :
    (s.pushAll (f.bytes k)).reg = s.reg ∨ k = f.cksum := by
  have hpay : ∀ b ∈ f.payload, b ≠ stateMarker := fun b hb => h b (List.mem_append_left _ hb)
  obtain ⟨-, -, hacc, hreg, -, -⟩ := s.pushSync.pushCheck.pushAll_stores f.payload rfl (by simp) (by simp [length_payload]) hpay
  rw [s.pushAll_bytes, State.pushAll_append, State.pushAll_cons, State.pushAll_nil]
  obtain hr | ⟨-, -, -, hk, -⟩ := (s.pushSync.pushCheck.pushAll f.payload).push_reg_cases k
  · exact .inl (hr.trans hreg)
  · exact .inr (hk.symm.trans hacc)

theorem State.pushAll_bytes_reg_cases (f : FrameArgs) (k : Byte) :
    (s.pushAll (f.bytes k)).reg = s.reg ∨ (k = f.cksum ∧ WellFormedFrame f k) := by
  by_cases h : WellFormedFrame f k
  · exact (s.pushAll_bytes_reg_of_wellFormed h).imp_right fun hk => ⟨hk, h⟩
  · exact .inl (s.pushAll_bytes_reg_of_not_wellFormed h)

/-! ### What the host can ask for -/

/-- The host asks for a push only by a command word or within a `FRAME`; the five cases of PUSH are the block's to select
(rules R91, R92, R97). -/
theorem pushedBytes_decodeHost {w : HostWord} {bs : List Byte} (h : pushedBytes (decodeHost w) = some bs) :
    (∃ b, decodeHost w = .push b ∧ bs = [b]) ∨ ∃ f k, w = .frame f k ∧ bs = f.bytes k := by
  cases w with
  | command cmd b =>
    simp only [decodeHost, decodeCommand] at h ⊢
    split_ifs at h ⊢ <;> cases h
    exact .inl ⟨b, rfl, rfl⟩
  | sample port => cases port <;> cases h
  | frame f k => cases h; exact .inr ⟨f, k, rfl, rfl⟩

/-- The micro-operations of the update are no operations of the host's (rule R91). -/
theorem decodeHost_ne_lane (w : HostWord) (lane : UpdLane) : decodeHost w ≠ lane.toInstr := by
  cases w with
  | command cmd b =>
    simp only [decodeHost, decodeCommand]
    cases lane <;> split_ifs <;> exact nofun
  | sample port => cases port <;> cases lane <;> exact nofun
  | frame f k => cases lane <;> exact nofun

variable {s}

/-- The quantities are functions of the registers and the parameters (rules R170 to R175). -/
theorem State.sameQuantities_of_reg {t : State} (hreg : t.reg = s.reg) (hcfg : t.cfg = s.cfg) : s.SameQuantities t := by
  simp only [State.SameQuantities, State.outputs, hreg, hcfg, and_self]

/-- What a host's operation does to the registers: nothing, or it is one of the writers of rule R23. -/
theorem exec_decodeHost_reg {w : HostWord} {t : State} (h : exec (decodeHost w) s = .next t) :
    t.reg = s.reg ∨ decodeHost w = .construct ∨ decodeHost w = .reset ∨
    (decodeHost w = .push s.acc ∧ s.acc ≠ stateMarker ∧ s.st = .accumulating ∧ s.idx.toNat = 23) ∨
    ∃ f, w = .frame f f.cksum ∧ WellFormedFrame f f.cksum := by
  obtain ⟨hi, -⟩ | ⟨bs, hbs, rfl⟩ | ⟨lane, hlane, -⟩ | ⟨_, -, x, rfl⟩ | ⟨-, rfl⟩ := exec_next_cases s h
  · obtain hi | hi := hi
    · exact .inr (.inl hi)
    · exact .inr (.inr (.inl hi))
  · obtain ⟨b, hw, rfl⟩ | ⟨f, k, rfl, rfl⟩ := pushedBytes_decodeHost hbs
    · obtain hr | ⟨hb, hst, h23, rfl, -⟩ := s.push_reg_cases b
      · exact .inl hr
      · exact .inr (.inr (.inr (.inl ⟨hw, hb, hst, h23⟩)))
    · obtain hr | ⟨rfl, hwf⟩ := s.pushAll_bytes_reg_cases f k
      · exact .inl hr
      · exact .inr (.inr (.inr (.inr ⟨f, rfl, hwf⟩)))
  · exact absurd hlane (decodeHost_ne_lane w lane)
  · exact .inl rfl
  · exact .inl rfl

/-! ### The obligation -/

/-- Settles O25: a quantity that changed is a register that changed, since no step writes the parameters. -/
theorem registersChangeOnlyByValidFrameOrReset : Obligations.RegistersChangeOnlyByValidFrameOrReset := by
  intro w rest s t hs hchange
  have hreg : t.reg ≠ s.reg := by
    intro hreg
    obtain hr | hq := hchange
    · exact hr hreg
    · exact hq (State.sameQuantities_of_reg hreg (step_next_cfg { s with pending := w :: rest } hs))
  have hx : exec (decodeHost w) { s with pending := rest } = .next t := ((step_eq_next _).mp hs).2
  exact (exec_decodeHost_reg hx).resolve_left hreg

end Sys2Proof.Machine
end

section
/-! SUPPORT. The memory rules of 20_memory.md: the buffer's bounds (R60, R61), big-endian fields (R63), reads without side effects
(R66), and no persistence (R75). -/
namespace Sys2Proof.Machine

variable {s : State}

/-! ### Every operation keeps the buffer canonical -/

theorem State.wf_buf_pushAll (h : s.buf.wf = true) (bs : List Byte) : (s.pushAll bs).buf.wf = true := by
  induction bs generalizing s with
  | nil => exact h
  | cons b bs ih => exact ih (State.wf_buf_push h b)

/-- Only pushes write bytes, and only below address 24; a reset empties the buffer, and nothing else touches it (rule R64). -/
theorem exec_next_wf_buf {i : Instr} {t : State} (h : s.buf.wf = true) (hx : exec i s = .next t) : t.buf.wf = true := by
  obtain ⟨-, rfl⟩ | ⟨bs, -, rfl⟩ | ⟨_, -, _, rfl, -⟩ | ⟨_, -, _, rfl⟩ | ⟨-, rfl⟩ := exec_next_cases s hx
  · exact Memory.wf_nil
  · exact State.wf_buf_pushAll h bs
  · exact h
  · exact h
  · exact h

/-! ### Fields as numbers -/

theorem memRead_two (m : Memory) (a : Nat) : memRead m a 2 = (m.read a).toNat * 256 + (m.read (a + 1)).toNat := by
  simp [memRead_succ]

theorem memRead_three (m : Memory) (a : Nat) :
    memRead m a 3 = (m.read a).toNat * 65536 + (m.read (a + 1)).toNat * 256 + (m.read (a + 2)).toNat := by
  rw [memRead_succ, memRead_two]
  omega

/-- Three bytes fit in 24 bits: the field is the number read, with no bit lost. -/
theorem field24_toNat (m : Memory) (a : Nat) : (field24 m a).toNat = memRead m a 3 := by
  rw [field24, BitVec.toNat_ofNat]
  exact Nat.mod_eq_of_lt (memRead_lt m a 3)

/-- Two bytes fit in 16 bits. -/
theorem field16_toNat (m : Memory) (a : Nat) : (field16 m a).toNat = memRead m a 2 := by
  rw [field16, BitVec.toNat_ofNat]
  exact Nat.mod_eq_of_lt (memRead_lt m a 2)

/-! ### What a read returns and leaves -/

variable (s)

/-- The value on one output port (rule R92). -/
def Outputs.valueAt (o : Outputs) : ReadPort → Sampled
  | .checksumValid => .flag o.checksumValid
  | .vEff => .quantity o.vEff
  | .iEff => .quantity o.iEff
  | .pActive => .quantity o.pActive
  | .pApparent => .quantity o.pApparent
  | .powerFactor => .quantity o.powerFactor
  | .energyKwh => .quantity o.energyKwh

/-- Every read completes and hands over the value of its port. -/
theorem exec_read (port : ReadPort) : exec port.toInstr s = .next (s.sample (s.outputs.valueAt port)) := by
  cases port <;> rfl

/-- The ports do not show what was read before. -/
@[simp] theorem State.sample_outputs (x : Sampled) : (s.sample x).outputs = s.outputs := rfl

@[simp] theorem State.sample_sample (x y : Sampled) : (s.sample x).sample y = s.sample y := rfl

theorem State.sameBlock_sample (x : Sampled) : s.SameBlock (s.sample x) := ⟨rfl, rfl, rfl, rfl, rfl, rfl⟩

/-! ### What a reset keeps -/

variable {s}

/-- The reset state is made of constants and of what is not the block's. -/
theorem State.clear_eq_of_sameOutside {s' : State} (h : s.SameOutside s') : s.clear = s'.clear := by
  obtain ⟨hcfg, hpending, hsampled⟩ := h
  rw [State.clear, State.clear, hcfg, hpending, hsampled]

/-! ### The obligations -/

/-- Settles O24: a canonical buffer holds no byte beyond address 23. -/
theorem everyOperationKeepsTheBufferCanonical : Obligations.EveryOperationKeepsTheBufferCanonical := by
  intro i s t h hx
  have hwf : t.buf.wf = true := exec_next_wf_buf h hx
  exact ⟨hwf, fun _ ha => Memory.read_outside hwf ha⟩

/-- Settles O4: `RESET` answers `clear` from every state. -/
theorem nothingSurvivesReset : Obligations.NothingSurvivesReset :=
  fun _ _ h => congrArg Host.Outcome.next (State.clear_eq_of_sameOutside h)

/-- Settles O30, from the two formulas and the two field widths. -/
theorem fieldsAreBigEndian : Obligations.FieldsAreBigEndian :=
  fun m a => ⟨memRead_three m a, field24_toNat m a, memRead_two m a, field16_toNat m a⟩

/-- Settles O48: a read writes only what was read last, which no port shows. -/
theorem readsAreRepeatableAndChangeNothing : Obligations.ReadsAreRepeatableAndChangeNothing := by
  intro port s t hx
  rw [exec_read] at hx
  cases hx
  refine ⟨s.sameBlock_sample _, rfl, rfl, ?_⟩
  rw [exec_read, State.sample_outputs, State.sample_sample]

end Sys2Proof.Machine
end

section
/-! SUPPORT. The encodings of 30_encoding.md: the frame as 192 bits (R80), the command word (R91), the decode word of `PUSH`
(R87, R88), the flags byte (R93), and what the pushes of a frame do (R97, R85). -/
namespace Sys2Proof

/-! ### The frame as 192 bits -/

/-- No two fields overlap, so each is read back as it was placed. -/
theorem frameFields_encodeFrame (f : FrameArgs) (k : Byte) : frameFields (encodeFrame f k) = f := by
  simp only [frameFields, encodeFrame, extract_or]
  simp +decide only [placeField_extract_same, placeField_extract_above, placeField_extract_below, BitVec.or_zero, BitVec.zero_or]

theorem encodeFrame_checksumByte (f : FrameArgs) (k : Byte) : (encodeFrame f k).extractLsb' 0 8 = k := by
  simp only [encodeFrame, extract_or]
  simp +decide only [placeField_extract_same, placeField_extract_below, BitVec.zero_or]

theorem decodeFrame_encodeFrame (f : FrameArgs) (k : Byte) : decodeFrame (encodeFrame f k) = .ok (.frame f k) := by
  rw [decodeFrame, if_pos (encodeFrame_header f k), frameFields_encodeFrame, encodeFrame_checksumByte]

/-- A part of a part of a word, at its place in the whole. -/
theorem extract_extract {n a m w : Nat} (lo : Nat) (x : BitVec w) (h : a + m ≤ n) :
    (x.extractLsb' lo n).extractLsb' a m = x.extractLsb' (lo + a) m := by
  apply BitVec.eq_of_getLsbD_eq
  intro i hi
  simp [hi, show a + i < n by omega, Nat.add_assoc]

/-- A word that begins with the markers is the bytes of its fields in arrival order: byte `j` begins at bit `184 - 8 j`. -/
theorem bytes_frameFields {w : BitVec 192} (h : w.extractLsb' 176 16 = 0x555A) :
    (frameFields w).bytes (w.extractLsb' 0 8) = (List.range 24).map fun j => w.extractLsb' (184 - 8 * j) 8 := by
  have hstate : w.extractLsb' 184 8 = stateMarker := by
    rw [← extract_extract (n := 16) 176 w (by decide : 8 + 8 ≤ 16), h]
    decide
  have hcheck : w.extractLsb' 176 8 = checkMarker := by
    rw [← extract_extract (n := 16) 176 w (by decide : 0 + 8 ≤ 16), h]
    decide
  simp [FrameArgs.bytes, FrameArgs.payload, frameFields, bytesOf24, bytesOf16, extract_extract, List.range_succ, hstate, hcheck]

/-- The same of an encoded frame (rule R80). -/
theorem bytes_eq_map_encodeFrame (f : FrameArgs) (k : Byte) :
    f.bytes k = (List.range 24).map fun j => (encodeFrame f k).extractLsb' (184 - 8 * j) 8 := by
  have h := bytes_frameFields (encodeFrame_header f k)
  rwa [frameFields_encodeFrame, encodeFrame_checksumByte] at h

/-! ### The command word -/

/-- The match and mask of rule R91 as single bits: `rst` before `soft_reset` before `in_valid`. -/
theorem decodeCommand_eq (cmd : BitVec 3) (d : Byte) :
    decodeCommand cmd d =
      if cmd.getLsbD 2 then .construct else if cmd.getLsbD 1 then .reset else if cmd.getLsbD 0 then .push d else .idle := by
  have hrst : cmd &&& 0b100 = 0b100 ↔ cmd.getLsbD 2 = true := by revert cmd; decide
  have hsoft : cmd.getLsbD 2 = false → (cmd &&& 0b110 = 0b010 ↔ cmd.getLsbD 1 = true) := by revert cmd; decide
  have hvalid : cmd.getLsbD 2 = false → cmd.getLsbD 1 = false → (cmd &&& 0b111 = 0b001 ↔ cmd.getLsbD 0 = true) := by
    revert cmd; decide
  simp only [decodeCommand, hrst]
  cases h2 : cmd.getLsbD 2
  · simp only [hsoft h2]
    cases h1 : cmd.getLsbD 1
    · simp only [hvalid h2 h1]
    · rfl
  · rfl

/-! ### The decode word of `PUSH` -/

/-- The case that a state class and a byte select (rule R88). -/
def pushCaseOfClass (sc : BitVec 2) (b : Byte) : PushCase :=
  if b = stateMarker then .sync
  else if sc = 0b01 ∧ b = checkMarker then .check
  else if sc = 0b10 then .store
  else if sc = 0b11 then .last
  else .drop

/-- The case carries the pushed byte: 0x55 and 0x5A are the bytes that the two cases without an operand stand for. -/
theorem decodePush_eq_pushCaseOfClass (sc : BitVec 2) (b : Byte) :
    decodePush (sc ++ b) = (pushCaseOfClass sc b).toInstr b := by
  rw [decodePush_append, pushCaseOfClass]
  split_ifs <;> rfl

theorem pushCaseOfClass_eq_sync {sc : BitVec 2} {b : Byte} : pushCaseOfClass sc b = .sync ↔ b = stateMarker := by
  rw [pushCaseOfClass]
  split_ifs with h <;> simp [h]

theorem pushCaseOfClass_eq_check {sc : BitVec 2} {b : Byte} :
    pushCaseOfClass sc b = .check ↔ sc = 0b01 ∧ b = checkMarker := by
  rw [pushCaseOfClass]
  split_ifs with hsync hcheck <;> simp_all [stateMarker, checkMarker]

/-- The cases that carry a byte are those that `PUSH` of 0x55 never selects. -/
theorem wellFormed_toInstr {c : PushCase} {b : Byte} (h : b = stateMarker → c = .sync) : WellFormed (c.toInstr b) := by
  have hb : c ≠ .sync → (b != stateMarker) = true := fun hc => bne_iff_ne.mpr fun hm => hc (h hm)
  cases c with
  | sync => rfl
  | check => rfl
  | store => exact hb nofun
  | last => exact hb nofun
  | drop => exact hb nofun

/-! ### The obligations on the words -/

/-- Settles O36: a frame by reading its fields back; a case of `PUSH` by the decode word's two parts, where a byte that is not 0x55 falls
to the row of its class; every other word is a constant of the table. -/
theorem decodeOfEncodeIsTheOperation : Obligations.DecodeOfEncodeIsTheOperation := by
  intro i hwf
  cases i
  case frame f k => exact decodeFrame_encodeFrame f k
  case pushStore b | pushLast b | pushDrop b =>
    have hb : b ≠ stateMarker := bne_iff_ne.mp hwf
    simp [encode, decode, decodePush_append, hb]
  all_goals rfl

/-- Settles O37, with the case that the class and the byte select. -/
theorem everyPushWordDecodesToAWellFormedCase : Obligations.EveryPushWordDecodesToAWellFormedCase := by
  intro sc b
  rw [decodePush_eq_pushCaseOfClass]
  exact ⟨wellFormed_toInstr pushCaseOfClass_eq_sync.mpr, _, rfl, pushCaseOfClass_eq_sync, pushCaseOfClass_eq_check⟩

/-- Settles O39: the layout is the definition of the bytes; the bits are the fields' parts at their places. -/
theorem frameWordIsItsBytesInArrivalOrder : Obligations.FrameWordIsItsBytesInArrivalOrder := by
  intro f k
  refine ⟨rfl, fun j hj => ?_⟩
  rw [bytes_eq_map_encodeFrame f k, List.getElem?_map, List.getElem?_range hj, Option.map_some]

/-- Settles O40: the words are closed, and the decoder is evaluated on each. -/
theorem wordsOfTheSpecDecode : Obligations.WordsOfTheSpecDecode := by
  unfold Obligations.WordsOfTheSpecDecode
  decide

end Sys2Proof

namespace Sys2Proof.Machine

variable (s : State)

/-! ### The state class -/

theorem State.stateClass_eq_headerMatched : s.stateClass = 0b01 ↔ s.st = .headerMatched := by
  rw [State.stateClass]
  cases s.st with
  | searching => simp
  | headerMatched => simp
  | accumulating => split_ifs <;> simp

theorem State.stateClass_eq_payload :
    s.stateClass = 0b10 ↔ s.st = .accumulating ∧ 2 ≤ s.idx.toNat ∧ s.idx.toNat ≤ 22 := by
  rw [State.stateClass]
  cases s.st with
  | searching => simp
  | headerMatched => simp
  | accumulating => split_ifs <;> simp [*]

theorem State.stateClass_eq_checksum : s.stateClass = 0b11 ↔ s.st = .accumulating ∧ s.idx.toNat = 23 := by
  rw [State.stateClass]
  cases s.st with
  | searching => simp
  | headerMatched => simp
  | accumulating =>
    split_ifs with hpay hlast
    · simp only [BitVec.reduceEq, true_and, false_iff]
      omega
    · simp [hlast]
    · simp [hlast]

/-- The state class holds all that the ordered tests ask of the state. -/
theorem State.pushCaseOfClass_stateClass (b : Byte) : pushCaseOfClass s.stateClass b = s.pushCase b := by
  simp only [pushCaseOfClass, s.stateClass_eq_headerMatched, s.stateClass_eq_payload, s.stateClass_eq_checksum]
  split_ifs with hsync hcheck hstore hlast
  · exact (s.pushCase_eq_sync.mpr hsync).symm
  · exact (s.pushCase_eq_check.mpr hcheck).symm
  · exact (s.pushCase_eq_store.mpr ⟨hsync, hstore⟩).symm
  · exact (s.pushCase_eq_last.mpr ⟨hsync, hlast⟩).symm
  · cases hc : s.pushCase b with
    | sync => exact absurd (s.pushCase_eq_sync.mp hc) hsync
    | check => exact absurd (s.pushCase_eq_check.mp hc) hcheck
    | store => exact absurd (s.pushCase_eq_store.mp hc).2 hstore
    | last => exact absurd (s.pushCase_eq_last.mp hc).2 hlast
    | drop => rfl

/-! ### Presented pushes -/

/-- No push looks at what the host presents next. -/
theorem State.push_with_pending (b : Byte) (q : List HostWord) :
    ({ s with pending := q } : State).push b = { s.push b with pending := q } := by
  rw [State.push, State.push, show ({ s with pending := q } : State).pushCase b = s.pushCase b from rfl]
  cases s.pushCase b with
  | last =>
    simp only [State.pushLast, State.goto_acc, State.goto_buf, State.store_buf, fieldChecksum, Memory.read_write_same]
    split_ifs <;> rfl
  | sync => rfl
  | check => rfl
  | store => rfl
  | drop => rfl

/-- Bytes presented one to a step are pushed one to a step. -/
theorem run_pushesOf (hl : s.cfg.legal = true) (bs : List Byte) (rest : List HostWord) :
    Host.Core.run core bs.length { s with pending := pushesOf bs ++ rest } =
      .next (({ s with pending := rest } : State).pushAll bs) := by
  induction bs generalizing s with
  | nil => rfl
  | cons b bs ih =>
    have hstep : step { s with pending := pushesOf (b :: bs) ++ rest } = .next { s.push b with pending := pushesOf bs ++ rest } := by
      rw [← s.push_with_pending]
      exact (stepRunsTheDecodedOperation s hl).2 (.command 0b001 b) (pushesOf bs ++ rest)
    rw [List.length_cons, run_succ_of_step (M := core) hstep, ih (s.push b) (by rw [State.push_cfg, hl]),
      ← s.push_with_pending, State.pushAll_cons]

/-! ### The flags byte -/

theorem getLsbD_eq_of_ushiftRight_eq {n k i : Nat} {x y : BitVec n} (h : x >>> k = y >>> k) (hi : k ≤ i) :
    x.getLsbD i = y.getLsbD i := by
  have hbit : (x >>> k).getLsbD (i - k) = (y >>> k).getLsbD (i - k) := by rw [h]
  simpa [Nat.add_sub_cancel' hi] using hbit

/-- Of the flags byte the update sees bits 7 to 4 only (rules R82, R93). -/
theorem State.update_reg_congr {s t : State} (hreg : t.reg = s.reg) (hcfg : t.cfg = s.cfg)
    (hread : ∀ a, a ≠ 20 → t.buf.read a = s.buf.read a)
    (hflags : ∀ i, 4 ≤ i → (t.buf.read 20).getLsbD i = (s.buf.read 20).getLsbD i) : t.update.reg = s.update.reg := by
  have h24 : ∀ a, a + 2 < 20 → field24 t.buf a = field24 s.buf a := fun a ha =>
    field24_congr fun j hj => hread _ (by omega)
  have hpf : field16 t.buf 21 = field16 s.buf 21 := field16_congr fun j hj => hread _ (by omega)
  simp (disch := decide) only [State.update_reg, fieldVparam, fieldV, fieldIparam, fieldI, fieldPparam, fieldP, fieldPf, fieldFlags,
    flagVoltage, flagCurrent, flagPower, flagOverflow, hreg, hcfg, hpf, h24, hflags]

/-! ### The pushes of a well-formed frame -/

theorem field24_of_bytes {m : Memory} {a : Nat} {x : Word24} (h2 : m.read a = x.extractLsb' 16 8)
    (h1 : m.read (a + 1) = x.extractLsb' 8 8) (h0 : m.read (a + 2) = x.extractLsb' 0 8) : field24 m a = x := by
  apply BitVec.eq_of_toNat_eq
  have hx := x.isLt
  simp only [field24_toNat, memRead_three, h2, h1, h0, BitVec.extractLsb'_toNat, Nat.shiftRight_eq_div_pow]
  omega

theorem field16_of_bytes {m : Memory} {a : Nat} {x : Word16} (h1 : m.read a = x.extractLsb' 8 8)
    (h0 : m.read (a + 1) = x.extractLsb' 0 8) : field16 m a = x := by
  apply BitVec.eq_of_toNat_eq
  have hx := x.isLt
  simp only [field16_toNat, memRead_two, h1, h0, BitVec.extractLsb'_toNat, Nat.shiftRight_eq_div_pow]
  omega

/-- The update on a buffer that holds a frame's payload (rule R152). -/
theorem State.update_reg_of_payload {f : FrameArgs} (h : ∀ j b, f.payload[j]? = some b → s.buf.read (2 + j) = b) :
    s.update.reg = s.reg.afterFrame f s.cfg.pfdataW := by
  have hvparam : fieldVparam s.buf = f.vparam := field24_of_bytes (h 0 _ rfl) (h 1 _ rfl) (h 2 _ rfl)
  have hv : fieldV s.buf = f.v := field24_of_bytes (h 3 _ rfl) (h 4 _ rfl) (h 5 _ rfl)
  have hiparam : fieldIparam s.buf = f.iparam := field24_of_bytes (h 6 _ rfl) (h 7 _ rfl) (h 8 _ rfl)
  have hi : fieldI s.buf = f.i := field24_of_bytes (h 9 _ rfl) (h 10 _ rfl) (h 11 _ rfl)
  have hpparam : fieldPparam s.buf = f.pparam := field24_of_bytes (h 12 _ rfl) (h 13 _ rfl) (h 14 _ rfl)
  have hp : fieldP s.buf = f.p := field24_of_bytes (h 15 _ rfl) (h 16 _ rfl) (h 17 _ rfl)
  have hflags : fieldFlags s.buf = f.flags := h 18 _ rfl
  have hpf : fieldPf s.buf = f.pf := field16_of_bytes (h 19 _ rfl) (h 20 _ rfl)
  rw [State.update_reg, hvparam, hv, hiparam, hi, hpparam, hp, hflags, hpf]
  rfl

theorem State.sequencerInv_pushAll {s : State} (h : s.SequencerInv) (bs : List Byte) : (s.pushAll bs).SequencerInv := by
  induction bs generalizing s with
  | nil => exact h
  | cons b bs ih => exact ih (State.sequencerInv_push h b)

/-- The block with all of a frame pushed but its checksum byte. -/
def State.beforeChecksum (f : FrameArgs) : State := s.pushSync.pushCheck.pushAll f.payload

theorem State.beforeChecksum_cfg (f : FrameArgs) : (s.beforeChecksum f).cfg = s.cfg := State.pushAll_cfg _ f.payload

theorem State.pushAll_bytes_eq_push (f : FrameArgs) (k : Byte) : s.pushAll (f.bytes k) = (s.beforeChecksum f).push k := by
  rw [s.pushAll_bytes, State.pushAll_append]
  rfl

/-- The markers make the sequencer's invariants hold, whatever held before. -/
theorem State.sequencerInv_beforeChecksum (f : FrameArgs) : (s.beforeChecksum f).SequencerInv :=
  State.sequencerInv_pushAll (State.sequencerInv_pushCheck (by simp)) f.payload

section WellFormed

variable {f : FrameArgs} {k : Byte} (h : WellFormedFrame f k)
include h

/-- The payload is stored in its place and summed. -/
theorem State.beforeChecksum_of_wellFormed :
    (s.beforeChecksum f).st = .accumulating ∧ (s.beforeChecksum f).idx.toNat = 23 ∧ (s.beforeChecksum f).acc = f.cksum ∧
      (s.beforeChecksum f).reg = s.reg ∧
      ∀ j b, f.payload[j]? = some b → (s.beforeChecksum f).buf.read (2 + j) = b := by
  obtain ⟨hst, hidx, hacc, hreg, -, hread⟩ :=
    s.pushSync.pushCheck.pushAll_stores f.payload rfl (by simp) (by simp [length_payload]) fun b hb => h b (List.mem_append_left _ hb)
  refine ⟨hst, hidx, hacc, hreg, fun j b hb => ?_⟩
  rw [State.beforeChecksum, hread]
  simp [hb]

theorem State.cksum_beforeChecksum : cksum (s.beforeChecksum f).buf = f.cksum := by
  obtain ⟨hst, hidx, hacc, -, -⟩ := s.beforeChecksum_of_wellFormed h
  rw [← hacc, State.acc_eq_cksum (s.sequencerInv_beforeChecksum f) hst hidx]

/-- The 24th byte of a well-formed frame is its `PUSH.LAST` (rule R108). -/
theorem State.pushAll_bytes_of_wellFormed : s.pushAll (f.bytes k) = (s.beforeChecksum f).pushLast k := by
  obtain ⟨hst, hidx, -, -, -⟩ := s.beforeChecksum_of_wellFormed h
  rw [s.pushAll_bytes_eq_push]
  exact State.push_of_last _ ((State.pushCase_eq_last _).mpr ⟨h k (by simp), hst, hidx⟩)

theorem State.pushAll_bytes_checksumValid : (s.pushAll (f.bytes k)).checksumValid = decide (f.cksum = k) := by
  rw [s.pushAll_bytes_of_wellFormed h, State.pushLast_checksumValid, s.cksum_beforeChecksum h]

end WellFormed

/-- A well-formed checksum-valid frame loads the registers as its flags byte says (rule R152). -/
theorem State.pushAll_bytes_reg_of_valid {f : FrameArgs} (h : WellFormedFrame f f.cksum) :
    (s.pushAll (f.bytes f.cksum)).reg = s.reg.afterFrame f s.cfg.pfdataW := by
  obtain ⟨-, -, hacc, hreg, hread⟩ := s.beforeChecksum_of_wellFormed h
  rw [s.pushAll_bytes_of_wellFormed h, State.pushLast_reg, if_pos hacc,
    State.update_reg_of_payload (f := f) _ fun j b hb => ?_]
  · rw [State.store_reg, State.store_cfg, hreg, s.beforeChecksum_cfg]
  · have hj : j < 21 := by
      rw [← length_payload f]
      exact (List.getElem?_eq_some_iff.mp hb).1
    rw [State.store_buf, Memory.read_write_other _ _ (by omega), hread j b hb]

/-- The frame of rule R85. -/
def sourceFrame : FrameArgs :=
  { vparam := 191400, v := 3500, iparam := 16100, i := 56107, pparam := 5313000, p := 1686825, flags := 0x71, pf := 237 }

theorem sourceFrame_wellFormed : WellFormedFrame sourceFrame sourceFrame.cksum := by decide

/-- The 24 bytes of the source (rule R85) are those of the frame with the fields it gives. -/
theorem sourceFrame_bytes :
    sourceFrame.bytes sourceFrame.cksum =
      [0x55, 0x5A, 0x02, 0xEB, 0xA8, 0x00, 0x0D, 0xAC, 0x00, 0x3E, 0xE4, 0x00, 0xDB, 0x2B, 0x51, 0x11, 0xE8, 0x19, 0xBD, 0x29, 0x71,
        0x00, 0xED, 0x1D] := by decide

/-! ### The obligations on the state -/

/-- Settles O6: table and tests select the same case. -/
theorem pushDecodeTableAgreesWithOrderedTests : Obligations.PushDecodeTableAgreesWithOrderedTests := by
  intro s b
  rw [State.decodeWord, decodePush_eq_pushCaseOfClass, State.pushCaseOfClass_stateClass]

/-- Settles O14, by induction on the presented bytes. -/
theorem frameIsItsTwentyFourPushes : Obligations.FrameIsItsTwentyFourPushes := fun f k s rest hl =>
  ⟨rfl, _, rfl, run_pushesOf s hl (f.bytes k) rest, (stepRunsTheDecodedOperation s hl).2 (.frame f k) rest⟩

/-- Settles O35: the two buffers differ at address 20 only, and there in bits that the update does not see. -/
theorem lowFlagBitsHaveNoEffect : Obligations.LowFlagBitsHaveNoEffect := by
  intro s x y hxy
  refine State.update_reg_congr rfl rfl (fun a ha => ?_) fun i hi => ?_
  · rw [Memory.read_write_other _ _ ha, Memory.read_write_other _ _ ha]
  · rw [Memory.read_write_same, Memory.read_write_same]
    exact getLsbD_eq_of_ushiftRight_eq hxy hi

/-- Settles O38: the step of a presented command is that of the first of the three bits that is set. -/
theorem commandPriorityIsResetThenSoftResetThenPush : Obligations.CommandPriorityIsResetThenSoftResetThenPush := by
  intro s cmd d rest hl
  have hstep : step { s with pending := .command cmd d :: rest } = exec (decodeCommand cmd d) { s with pending := rest } :=
    (stepRunsTheDecodedOperation s hl).2 (.command cmd d) rest
  rw [hstep, decodeCommand_eq]
  refine ⟨fun h2 => ?_, fun h2 h1 => ?_, fun h2 h1 h0 => ?_, fun h2 h1 h0 => ?_⟩
  · simp only [h2, if_true]
  · simp only [h2, h1, Bool.false_eq_true, if_false, if_true]
  · simp only [h2, h1, h0, Bool.false_eq_true, if_false, if_true]
  · simp only [h2, h1, h0, Bool.false_eq_true, if_false]

/-- Settles O55: the source's bytes are a well-formed checksum-valid frame. -/
theorem exampleFrameLoadsTheGivenRegisters : Obligations.ExampleFrameLoadsTheGivenRegisters := by
  intro s
  rw [← sourceFrame_bytes]
  refine ⟨?_, ?_, ?_⟩
  · rw [s.pushAll_bytes_of_wellFormed sourceFrame_wellFormed, State.pushLast_fc]
  · rw [s.pushAll_bytes_checksumValid sourceFrame_wellFormed, decide_eq_true_eq]
  · rw [s.pushAll_bytes_reg_of_valid sourceFrame_wellFormed]
    rfl

end Sys2Proof.Machine
end

section
/-! SUPPORT. The rules of 40_framing.md: what each case of `PUSH` does (R100 to R106), when a push completes a frame (R107), `IDLE`
(R112), and what a whole frame does from any state (R108, R109, R111). -/
namespace Sys2Proof.Machine

variable (s : State)

/-! ### The selected case -/

theorem exec_push (b : Byte) : exec (.push b) s = .next (s.push b) := rfl

theorem State.pushCase_eq_drop {b : Byte} :
    s.pushCase b = .drop ↔ b ≠ stateMarker ∧ ¬(s.st = .headerMatched ∧ b = checkMarker) ∧
      ¬(s.st = .accumulating ∧ 2 ≤ s.idx.toNat ∧ s.idx.toNat ≤ 23) := by
  unfold State.pushCase
  split_ifs with hsync hcheck hpay hstore
  · simp [hsync]
  · simp [hcheck]
  · simp [hpay]
  · simp [hpay]
  · simp only [true_iff]
    exact ⟨hsync, hcheck, hpay⟩

theorem State.pushCase_congr {s s' : State} (hst : s'.st = s.st) (hidx : s'.idx = s.idx) (b : Byte) :
    s'.pushCase b = s.pushCase b := by
  simp only [State.pushCase, hst, hidx]

/-- Below the checksum byte's position the advance of `idx` does not leave its 5 bits. -/
theorem State.pushStore_idx_toNat (b : Byte) (h : s.idx.toNat ≤ 22) : (s.pushStore b).idx.toNat = s.idx.toNat + 1 := by
  have hone : (1 : BitVec 5).toNat = 1 := rfl
  rw [State.pushStore_idx, BitVec.toNat_add, hone, Nat.mod_eq_of_lt (by omega)]

/-! ### The buffer and the verdict -/

/-- Bytes 0 and 1 are no part of the checksum test (rule R133). -/
theorem State.checksumValid_congr {s t : State} (h : ∀ a, 2 ≤ a → t.buf.read a = s.buf.read a) :
    t.checksumValid = s.checksumValid := by
  have hsum : cksum t.buf = cksum s.buf := sumBytes_congr fun j _ => h (2 + j) (by omega)
  rw [State.checksumValid, State.checksumValid, fieldChecksum, fieldChecksum, hsum, h 23 (by omega)]

/-- No push writes outside the 24 bytes (rule R61). -/
theorem State.push_read_outside (b : Byte) {a : Nat} (ha : 24 ≤ a) : (s.push b).buf.read a = s.buf.read a := by
  obtain ⟨-, hp⟩ | ⟨-, -, hp⟩ | ⟨-, -, -, h22, hp⟩ | ⟨-, -, -, hp⟩ | ⟨-, -, -, hp⟩ := s.push_cases b <;> rw [hp]
  · rw [State.pushSync_buf, Memory.read_write_other _ _ (by omega)]
  · rw [State.pushCheck_buf, Memory.read_write_other _ _ (by omega)]
  · rw [State.pushStore_buf, Memory.read_write_other _ _ (by omega)]
  · rw [State.pushLast_buf, Memory.read_write_other _ _ (by omega)]
  · rw [State.pushDrop_buf]

theorem State.pushAll_read_outside (bs : List Byte) {a : Nat} (ha : 24 ≤ a) : (s.pushAll bs).buf.read a = s.buf.read a := by
  induction bs generalizing s with
  | nil => rfl
  | cons b bs ih => rw [State.pushAll_cons, ih, s.push_read_outside b ha]

/-! ### Frame complete -/

/-- The result of a `PUSH` (rule R107). -/
theorem State.push_fc_eq_true {b : Byte} : (s.push b).fc = true ↔ s.pushCase b = .last := by
  rw [State.push]
  cases s.pushCase b <;> simp

/-- Pushes too few to reach `PUSH.LAST` complete no frame. -/
theorem State.pushAll_fc_of_length_le (bs : List Byte) (hfc : s.fc = false) (h : bs.length ≤ s.pushesBeforeLast) :
    (s.pushAll bs).fc = false := by
  induction bs generalizing s with
  | nil => exact hfc
  | cons b bs ih =>
    rw [List.length_cons] at h
    have hnext := s.pushesBeforeLast_push b
    refine ih (s.push b) (Bool.eq_false_iff.mpr fun hlast => ?_) (by omega)
    obtain ⟨-, hst, h23⟩ := s.pushCase_eq_last.mp (s.push_fc_eq_true.mp hlast)
    rw [s.pushesBeforeLast_of_accumulating hst (by omega) (by omega)] at h
    omega

/-- After a 0x55 it takes a 23rd byte to complete a frame. -/
theorem State.pushSync_pushAll_fc {bs : List Byte} (h : bs.length ≤ 22) : (s.pushSync.pushAll bs).fc = false :=
  State.pushAll_fc_of_length_le _ bs rfl h

/-- A header and 22 bytes without 0x55 complete a frame, whatever came before. -/
theorem State.pushAll_body_fc {body : List Byte} (hlen : body.length = 22) (hbody : ∀ b ∈ body, b ≠ stateMarker) :
    (s.pushSync.pushCheck.pushAll body).fc = true := by
  obtain rfl | ⟨payload, k, rfl⟩ := body.eq_nil_or_concat'
  · cases hlen
  · have hpay : payload.length = 21 := by simpa using hlen
    obtain ⟨hst, hidx, -⟩ := s.pushSync.pushCheck.pushAll_stores payload rfl (by simp) (by simp [hpay]) fun b hb =>
      hbody b (List.mem_append_left _ hb)
    rw [hpay] at hidx
    rw [State.pushAll_append, State.pushAll_cons, State.pushAll_nil, State.push_fc_eq_true]
    exact (State.pushCase_eq_last _).mpr ⟨hbody k (by simp), hst, hidx⟩

/-- What the sequencer's state says of the bytes pushed so far: in HeaderMatched the last was 0x55; in Accumulating the last were a
header and the `idx - 2` payload bytes it counts. -/
def State.HasReceived (bs : List Byte) : Prop :=
  (s.st = .headerMatched → [stateMarker] <:+ bs) ∧
  (s.st = .accumulating →
    ∃ body, stateMarker :: checkMarker :: body <:+ bs ∧ s.idx.toNat = body.length + 2 ∧ ∀ b ∈ body, b ≠ stateMarker)

variable {s}

theorem State.hasReceived_of_searching (h : s.st = .searching) (bs : List Byte) : s.HasReceived bs := by
  constructor <;> intro hst <;> cases h.symm.trans hst

theorem State.hasReceived_push {bs : List Byte} (h : s.HasReceived bs) (b : Byte) : (s.push b).HasReceived (bs ++ [b]) := by
  obtain ⟨hheader, haccum⟩ := h
  obtain ⟨rfl, hp⟩ | ⟨hst, rfl, hp⟩ | ⟨hb, hst, -, h22, hp⟩ | ⟨-, -, -, hp⟩ | ⟨-, -, -, hp⟩ := s.push_cases b <;> rw [hp]
  · exact ⟨fun _ => List.suffix_append bs _, nofun⟩
  · obtain ⟨before, rfl⟩ := hheader hst
    exact ⟨nofun, fun _ => ⟨[], ⟨before, by simp⟩, rfl, nofun⟩⟩
  · obtain ⟨body, ⟨before, rfl⟩, hidx, hbody⟩ := haccum hst
    refine ⟨by simp [hst], fun _ => ⟨body ++ [b], ⟨before, by simp⟩, ?_, ?_⟩⟩
    · rw [s.pushStore_idx_toNat b h22, hidx, List.length_append, List.length_singleton, Nat.add_right_comm]
    · exact List.forall_mem_append.mpr ⟨hbody, List.forall_mem_singleton.mpr hb⟩
  · exact State.hasReceived_of_searching rfl _
  · exact State.hasReceived_of_searching rfl _

theorem State.hasReceived_pushAll {bs : List Byte} (h : s.HasReceived bs) (cs : List Byte) :
    (s.pushAll cs).HasReceived (bs ++ cs) := by
  induction cs generalizing s bs with
  | nil => rwa [List.append_nil]
  | cons c cs ih =>
    rw [List.append_cons]
    exact ih (State.hasReceived_push h c)

/-- A push that completes a frame is the last byte of one (rule R107). -/
theorem State.exists_frame_of_push_fc {bs : List Byte} (h : s.HasReceived bs) {b : Byte} (hfc : (s.push b).fc = true) :
    ∃ before body, bs ++ [b] = before ++ stateMarker :: checkMarker :: body ∧ body.length = 22 ∧ ∀ x ∈ body, x ≠ stateMarker := by
  obtain ⟨hb, hst, h23⟩ := s.pushCase_eq_last.mp (s.push_fc_eq_true.mp hfc)
  obtain ⟨-, haccum⟩ := h
  obtain ⟨body, ⟨before, rfl⟩, hidx, hbody⟩ := haccum hst
  refine ⟨before, body ++ [b], by simp, ?_, ?_⟩
  · rw [List.length_append, List.length_singleton]
    omega
  · exact List.forall_mem_append.mpr ⟨hbody, List.forall_mem_singleton.mpr hb⟩

/-! ### The 24 pushes of a frame -/

variable (s)

/-- Before its 24th byte no frame completes and none changes a register, whatever state it is pushed in. -/
theorem State.pushAll_take_bytes (f : FrameArgs) (k : Byte) {n : Nat} (hpos : 0 < n) (hlt : n < 24) :
    (s.pushAll ((f.bytes k).take n)).fc = false ∧ (s.pushAll ((f.bytes k).take n)).reg = s.reg := by
  obtain ⟨m, rfl⟩ := Nat.exists_eq_add_of_le' hpos
  have htake : (f.bytes k).take (m + 1) = stateMarker :: (checkMarker :: (f.payload ++ [k])).take m := rfl
  have hlen : ((checkMarker :: (f.payload ++ [k])).take m).length ≤ 22 := (List.length_take_le _ _).trans (by omega)
  rw [htake, State.pushAll_cons, State.push_of_sync]
  exact ⟨s.pushSync_pushAll_fc hlen, State.pushAll_reg_of_length_le s.pushSync _ hlen⟩

/-- What follows a 0x55 after byte 0 is too short to complete a frame (rule R109). -/
theorem State.pushAll_bytes_fc_of_not_wellFormed {f : FrameArgs} {k : Byte} (h : ¬WellFormedFrame f k) :
    (s.pushAll (f.bytes k)).fc = false := by
  have hmem : stateMarker ∈ f.payload ++ [k] := by
    by_contra hno
    exact h fun b hb hbm => hno (hbm ▸ hb)
  obtain ⟨before, after, hsplit⟩ := List.append_of_mem hmem
  have hlen : (before ++ stateMarker :: after).length = 22 := by
    rw [← hsplit]
    rfl
  rw [List.length_append, List.length_cons] at hlen
  rw [s.pushAll_bytes, hsplit, State.pushAll_append, State.pushAll_cons, State.push_of_sync]
  exact State.pushSync_pushAll_fc _ (by omega)

/-- The checksummed bytes stand from byte 2 on (rule R80). -/
theorem getElem?_bytes_payload (f : FrameArgs) (k : Byte) {j : Nat} (hj : j < 21) : (f.bytes k)[2 + j]? = f.payload[j]? := by
  have htail : (f.bytes k)[2 + j]? = (f.payload ++ [k])[j]? := by
    rw [Nat.add_comm]
    rfl
  rw [htail, List.getElem?_append_left (by rwa [length_payload])]

/-- A well-formed frame, pushed whole, stands in the buffer byte by byte (rule R111). -/
theorem State.pushAll_bytes_read {f : FrameArgs} {k : Byte} (h : WellFormedFrame f k) {a : Nat} (ha : a < 24) :
    (f.bytes k)[a]? = some ((s.pushAll (f.bytes k)).buf.read a) := by
  obtain ⟨hst, -, -, -, hread⟩ := s.beforeChecksum_of_wellFormed h
  obtain ⟨-, -, haccum, -⟩ := s.sequencerInv_beforeChecksum f
  obtain ⟨-, -, hmarker, hcheck, -, -⟩ := haccum hst
  have hbelow : ∀ a, a < 23 → (s.pushAll (f.bytes k)).buf.read a = (s.beforeChecksum f).buf.read a := fun a ha => by
    rw [s.pushAll_bytes_of_wellFormed h, State.pushLast_buf, Memory.read_write_other _ _ (by omega)]
  obtain rfl | rfl | ⟨j, hj, rfl⟩ | rfl : a = 0 ∨ a = 1 ∨ (∃ j, j < 21 ∧ a = 2 + j) ∨ a = 23 := by
    by_cases h2 : 2 ≤ a ∧ a < 23
    · exact .inr (.inr (.inl ⟨a - 2, by omega, by omega⟩))
    · omega
  · rw [hbelow 0 (by omega), hmarker]
    rfl
  · rw [hbelow 1 (by omega), hcheck]
    rfl
  · have hpay : f.payload[j]? = some f.payload[j] := List.getElem?_eq_getElem hj
    rw [getElem?_bytes_payload f k hj, hbelow _ (by omega), hpay, hread j _ hpay]
  · rw [s.pushAll_bytes_of_wellFormed h, State.pushLast_buf, Memory.read_write_same]
    rfl

/-! ### The obligations -/

/-- Settles O15: the 24th byte is the frame's `PUSH.LAST`, and none before it is one. -/
theorem wellFormedValidFrameAlwaysDecodes : Obligations.WellFormedValidFrameAlwaysDecodes := by
  intro f s h
  have hlast := s.pushAll_bytes_of_wellFormed h
  refine ⟨s.pushAll (f.bytes f.cksum), rfl, by rw [hlast, State.pushLast_fc], ?_, by rw [hlast, State.pushLast_st],
    by rw [hlast, State.pushLast_idx], by rw [hlast, State.pushLast_acc], s.pushAll_bytes_reg_of_valid h,
    fun a ha => s.pushAll_bytes_read h ha, fun a ha => s.pushAll_read_outside _ ha,
    ⟨s.pushAll_cfg _, s.pushAll_pending _, s.pushAll_sampled _⟩, fun n hpos hlt => (s.pushAll_take_bytes f _ hpos hlt).1⟩
  rw [s.pushAll_bytes_checksumValid h, decide_eq_true rfl]

/-- Settles O17: up to the 23rd byte no frame completes, and with the 24th this one does not either. -/
theorem frameWithMarkerInPayloadIsLost : Obligations.FrameWithMarkerInPayloadIsLost := by
  intro f k s h n hpos hle
  obtain hlt | rfl := Nat.lt_or_eq_of_le hle
  · exact s.pushAll_take_bytes f k hpos hlt
  · have hwhole : (f.bytes k).take 24 = f.bytes k := rfl
    rw [hwhole]
    exact ⟨s.pushAll_bytes_fc_of_not_wellFormed h, s.pushAll_bytes_reg_of_not_wellFormed h⟩

/-- Settles O18: from Searching the sequencer's state tells the end of what was pushed, and at `PUSH.LAST` that end is a header and 21
bytes. -/
theorem frameCompleteExactlyAfterTwentyFourBytes : Obligations.FrameCompleteExactlyAfterTwentyFourBytes := by
  refine ⟨fun s b => s.push_fc_eq_true, fun s bs hst hne => ⟨fun hfc => ?_, ?_⟩⟩
  · obtain rfl | ⟨cs, b, rfl⟩ := bs.eq_nil_or_concat'
    · exact absurd rfl hne
    · rw [State.pushAll_append] at hfc
      exact State.exists_frame_of_push_fc (State.hasReceived_pushAll (State.hasReceived_of_searching hst []) cs) hfc
  · rintro ⟨before, body, rfl, hlen, hbody⟩
    have hheader : s.pushAll (before ++ 0x55 :: 0x5A :: body) = (s.pushAll before).pushSync.pushCheck.pushAll body := by
      rw [State.pushAll_append, ← State.push_header]
      rfl
    rw [hheader, State.pushAll_body_fc _ hlen hbody]

/-- Settles O5: each clause is the condition under which `pushCase` selects its case. -/
theorem pushPerformsTheCaseTheOrderedTestsSelect : Obligations.PushPerformsTheCaseTheOrderedTestsSelect := by
  refine ⟨fun b s => ⟨⟨_, exec_push s b⟩, fun hb => ?_, fun _ hst hb => ?_, fun hb hst h2 h22 => ?_, fun hb hst h23 => ?_,
    fun hb hcheck hpay => ?_⟩, fun b s s' hst hidx => State.pushCase_congr hst hidx b⟩ <;> rw [exec_push]
  · rw [hb]
    exact congrArg Host.Outcome.next s.push_of_sync
  · rw [hb]
    exact congrArg Host.Outcome.next (s.push_of_check (s.pushCase_eq_check.mpr ⟨hst, rfl⟩))
  · rw [s.push_of_store (s.pushCase_eq_store.mpr ⟨hb, hst, h2, h22⟩)]
  · rw [s.push_of_last (s.pushCase_eq_last.mpr ⟨hb, hst, h23⟩)]
  · rw [s.push_of_drop (s.pushCase_eq_drop.mpr ⟨hb, hcheck, hpay⟩)]

/-- Settles O7: the marker is written below the bytes that the checksum test reads. -/
theorem pushSyncRestartsTheHeader : Obligations.PushSyncRestartsTheHeader := by
  intro s
  have hread : ∀ a, a ≠ 0 → s.pushSync.buf.read a = s.buf.read a := fun a ha => by
    rw [State.pushSync_buf, Memory.read_write_other _ _ ha]
  exact ⟨s.pushSync, rfl, congrArg Host.Outcome.next s.push_of_sync, s.buf.read_write_same 0 stateMarker, hread, rfl, rfl, rfl,
    rfl, rfl, State.checksumValid_congr fun a ha => hread a (by omega), rfl, rfl, rfl⟩

/-- Settles O8, like O7 with the check marker at address 1. -/
theorem pushCheckBeginsThePayload : Obligations.PushCheckBeginsThePayload := by
  intro s hst
  have hpush : s.push checkMarker = s.pushCheck := s.push_of_check (s.pushCase_eq_check.mpr ⟨hst, rfl⟩)
  have hread : ∀ a, a ≠ 1 → s.pushCheck.buf.read a = s.buf.read a := fun a ha => by
    rw [State.pushCheck_buf, Memory.read_write_other _ _ ha]
  exact ⟨s.pushCheck, by rw [exec_pushCheck, hpush], congrArg Host.Outcome.next hpush, s.buf.read_write_same 1 checkMarker,
    hread, rfl, rfl, rfl, rfl, rfl, State.checksumValid_congr fun a ha => hread a (by omega), rfl, rfl, rfl⟩

/-- Settles O9: each element is that of `pushStore`. -/
theorem pushStoreStoresAndSums : Obligations.PushStoreStoresAndSums := by
  intro b s hb hst h2 h22
  have hpush : s.push b = s.pushStore b := s.push_of_store (s.pushCase_eq_store.mpr ⟨hb, hst, h2, h22⟩)
  exact ⟨s.pushStore b, by rw [exec_pushStore, hpush], by rw [exec_push, hpush], s.buf.read_write_same _ b,
    fun a ha => s.buf.read_write_other b ha, BitVec.toNat_add _ _, s.pushStore_idx_toNat b h22, hst, rfl, rfl, rfl, rfl, rfl⟩

/-- Settles O10: the comparison is with the byte just stored, and R47 makes the accumulator the sum that the verdict recomputes. -/
theorem pushLastComparesAndCompletes : Obligations.PushLastComparesAndCompletes := by
  intro b s hb hst h23
  have hpush : s.push b = s.pushLast b := s.push_of_last (s.pushCase_eq_last.mpr ⟨hb, hst, h23⟩)
  refine ⟨s.pushLast b, by rw [exec_pushLast, hpush], by rw [exec_push, hpush], ?_, fun a ha => ?_, fun hacc => ?_, fun hacc => ?_,
    rfl, rfl, rfl, rfl, fun hseq => ?_, s.pushLast_cfg b, s.pushLast_pending b, s.pushLast_sampled b⟩
  · rw [State.pushLast_buf, Memory.read_write_same]
  · rw [State.pushLast_buf, Memory.read_write_other _ _ ha]
  · rw [State.pushLast_reg, if_pos hacc, State.store]
  · rw [State.pushLast_reg, if_neg hacc]
  · rw [State.pushLast_checksumValid, State.acc_eq_cksum hseq hst h23]

/-- Settles O11: the discarded byte leaves the buffer, and with it the verdict. -/
theorem pushDropDiscardsTheByte : Obligations.PushDropDiscardsTheByte := by
  intro b s hb hcheck hpay
  have hpush : s.push b = s.pushDrop := s.push_of_drop (s.pushCase_eq_drop.mpr ⟨hb, hcheck, hpay⟩)
  exact ⟨s.pushDrop, by rw [exec_pushDrop, hpush], by rw [exec_push, hpush], rfl, rfl, rfl, rfl, fun _ => rfl, rfl,
    State.checksumValid_congr fun _ _ => rfl, rfl, rfl, rfl⟩

/-- Settles O13, by induction on the number of steps. -/
theorem idleChangesNothing : Obligations.IdleChangesNothing := by
  refine fun s => ⟨rfl, fun hl hp n => ?_⟩
  have hstep : step s = .next s := step_of_nothing_presented s hl hp
  induction n with
  | zero => rfl
  | succ n ih => rw [run_succ_of_step (M := core) hstep, ih]

end Sys2Proof.Machine
end

section
/-! SUPPORT. The validator of 41_validator.md: the checksum as a number (R130, R133), what one changed byte does to it (R137), and which
operations leave the verdict (R134). -/
namespace Sys2Proof.Machine

/-! ### The byte sum -/

/-- Adding bytes modulo 256 one at a time is adding them as numbers and reducing once. -/
theorem sumBytes_toNat (m : Memory) (a n : Nat) :
    (sumBytes m a n).toNat = ((List.range n).map fun k => (m.read (k + a)).toNat).sum % 256 := by
  induction n with
  | zero => rfl
  | succ n ih =>
    rw [sumBytes_succ, BitVec.toNat_add, ih, List.range_succ, List.map_append, List.sum_append, List.map_singleton,
      List.sum_singleton, Nat.add_comm n a, Nat.mod_add_mod]

/-- A change of one summed byte moves the sum by the difference of the two bytes; said with additions on both sides. -/
theorem sumBytes_add_read_of_differ_at {m m' : Memory} {a n k : Nat} (h : ∀ b, b ≠ k → m'.read b = m.read b) (hak : a ≤ k)
    (hkn : k < a + n) : sumBytes m' a n + m.read k = sumBytes m a n + m'.read k := by
  induction n with
  | zero => omega
  | succ n ih =>
    rw [sumBytes_succ, sumBytes_succ]
    obtain rfl | hlt : k = a + n ∨ k < a + n := by omega
    · have hbefore : sumBytes m' a n = sumBytes m a n := sumBytes_congr fun j hj => h (a + j) (by omega)
      rw [hbefore, add_right_comm]
    · rw [h (a + n) (by omega), add_right_comm, ih hlt, add_right_comm]

theorem sumBytes_ne_of_differ_at {m m' : Memory} {a n k : Nat} (h : ∀ b, b ≠ k → m'.read b = m.read b) (hk : m'.read k ≠ m.read k)
    (hak : a ≤ k) (hkn : k < a + n) : sumBytes m' a n ≠ sumBytes m a n := fun hsum => by
  have hmove := sumBytes_add_read_of_differ_at h hak hkn
  rw [hsum] at hmove
  exact hk (add_left_cancel hmove).symm

/-! ### The verdict -/

variable {s : State}

theorem State.checksumValid_eq_true : s.checksumValid = true ↔ cksum s.buf = fieldChecksum s.buf := beq_iff_eq

/-- The checksum test on numbers (rules R130, R133). -/
theorem State.checksumValid_eq_decide_sum (s : State) : s.checksumValid =
    decide (((List.range 21).map fun k => (s.buf.read (k + 2)).toNat).sum % 256 = (s.buf.read 23).toNat) := by
  rw [Bool.eq_iff_iff, State.checksumValid_eq_true, decide_eq_true_iff, ← BitVec.toNat_inj, cksum, sumBytes_toNat, fieldChecksum]

/-- A byte that is 0x55 or comes outside Accumulating is written at address 0 or 1 or nowhere, where the checksum test does not look
(rule R134). -/
theorem State.push_checksumValid {b : Byte} (h : b = stateMarker ∨ s.st ≠ .accumulating) :
    (s.push b).checksumValid = s.checksumValid := by
  obtain ⟨-, hp⟩ | ⟨-, -, hp⟩ | ⟨hb, hst, -⟩ | ⟨hb, hst, -⟩ | ⟨-, -, -, hp⟩ := s.push_cases b
  · rw [hp]
    exact State.checksumValid_congr fun a ha => by rw [State.pushSync_buf, Memory.read_write_other _ _ (by omega)]
  · rw [hp]
    exact State.checksumValid_congr fun a ha => by rw [State.pushCheck_buf, Memory.read_write_other _ _ (by omega)]
  · exact absurd h (not_or.mpr ⟨hb, not_not.mpr hst⟩)
  · exact absurd h (not_or.mpr ⟨hb, not_not.mpr hst⟩)
  · rw [hp]
    exact State.checksumValid_congr fun _ _ => rfl

@[simp] theorem State.setReg_checksumValid (r : Regs) : (s.setReg r).checksumValid = s.checksumValid := rfl

@[simp] theorem State.sample_checksumValid (x : Sampled) : (s.sample x).checksumValid = s.checksumValid := rfl

/-- A micro-operation of the update completes and writes the register file only (rule R149). -/
theorem exec_lane (s : State) (lane : UpdLane) : ∃ r, exec lane.toInstr s = .next (s.setReg r) := by
  cases lane <;> exact ⟨_, rfl⟩

/-! ### The obligations -/

/-- Settles O26: `CHK` hands over the verdict, and the byte sum is the sum of the numbers modulo 256. -/
theorem chkReturnsTheAdditiveChecksumTest : Obligations.ChkReturnsTheAdditiveChecksumTest := by
  intro s
  rw [← s.checksumValid_eq_decide_sum]
  rfl

/-- Settles O28: a marker and a byte outside Accumulating are pushes of one kind, and the rest does not write the buffer. -/
theorem verdictLastsUntilTheNextPayloadByte : Obligations.VerdictLastsUntilTheNextPayloadByte := by
  rintro i s t h (rfl | rfl | ⟨rfl, hst⟩ | ⟨b, rfl, hst⟩ | ⟨port, rfl⟩ | ⟨lane, rfl⟩)
  · cases h
    rfl
  · rw [exec_pushSync] at h
    cases h
    exact State.push_checksumValid (.inl rfl)
  · rw [exec_pushCheck] at h
    cases h
    exact State.push_checksumValid (.inr (by simp [hst]))
  · rw [exec_push] at h
    cases h
    exact State.push_checksumValid (.inr hst)
  · rw [exec_read] at h
    cases h
    exact State.sample_checksumValid _
  · obtain ⟨r, hr⟩ := exec_lane s lane
    rw [hr] at h
    cases h
    exact State.setReg_checksumValid r

/-- Settles O29: an error in a summed byte moves the sum and leaves byte 23; an error in byte 23 leaves the sum. -/
theorem everySingleByteErrorIsDetected : Obligations.EverySingleByteErrorIsDetected := by
  intro s s' k h2 h23 hk hother hvalid
  rw [State.checksumValid_eq_true] at hvalid
  rw [Bool.eq_false_iff, ne_eq, State.checksumValid_eq_true]
  obtain hlt | rfl : k < 23 ∨ k = 23 := by omega
  · have hbyte : fieldChecksum s'.buf = fieldChecksum s.buf := hother 23 (by omega)
    rw [hbyte, ← hvalid]
    exact sumBytes_ne_of_differ_at hother hk h2 hlt
  · have hsum : cksum s'.buf = cksum s.buf := sumBytes_congr fun j hj => hother (2 + j) (by omega)
    rw [hsum, hvalid]
    exact hk.symm

end Sys2Proof.Machine
end

section
/-! SUPPORT. The register update of 42_extract.md: what each of the eight micro-operations makes of its own register (R141 to R148), and
why their order does not matter (R140). -/
namespace Sys2Proof.Machine

/-! ### The gate -/

theorem updIf_of_set {α : Type} {flag : Bool} (h : flag = true) (old new : α) : updIf flag old new = new := if_pos h

theorem updIf_of_clear {α : Type} {flag : Bool} (h : flag = false) (old new : α) : updIf flag old new = old :=
  h ▸ updIf_false old new

/-- A gated load whose flag is set leaves the number that stands in the frame (rule R83). -/
theorem updIf_field24_toNat {flag : Bool} (h : flag = true) (old : Word24) (m : Memory) (a : Nat) :
    (updIf flag old (field24 m a)).toNat = memRead m a 3 := by
  rw [updIf_of_set h, field24_toNat]

/-! ### The overflow counter -/

variable {s : State}

theorem State.nextPfdata_of_set (h : (s.buf.read 20).getLsbD 7 = true) :
    s.nextPfdata = (s.reg.pfdata + 1) % 2 ^ s.cfg.pfdataW := updIf_of_set h _ _

theorem State.nextPfdata_of_clear (h : (s.buf.read 20).getLsbD 7 = false) : s.nextPfdata = s.reg.pfdata :=
  updIf_of_clear h _ _

/-- Below its last value the counter does not wrap (rule R27). -/
theorem State.nextPfdata_eq_succ (h : (s.buf.read 20).getLsbD 7 = true) (hlt : s.reg.pfdata < 2 ^ s.cfg.pfdataW - 1) :
    s.nextPfdata = s.reg.pfdata + 1 := by
  rw [State.nextPfdata_of_set h]
  exact Nat.mod_eq_of_lt (Nat.add_lt_of_lt_sub hlt)

/-! ### The micro-operations one after another -/

/-- The effect of a micro-operation, named by its lane. -/
def State.updLane (s : State) : UpdLane → State
  | .vparam => s.updVparam
  | .v => s.updV
  | .iparam => s.updIparam
  | .i => s.updI
  | .pparam => s.updPparam
  | .p => s.updP
  | .pf => s.updPf
  | .pfdata => s.updPfdata

theorem exec_toInstr (s : State) (lane : UpdLane) : exec lane.toInstr s = .next (s.updLane lane) := by
  cases lane <;> rfl

theorem execAll_map_toInstr (lanes : List UpdLane) (s : State) :
    execAll (lanes.map UpdLane.toInstr) s = .next (lanes.foldl State.updLane s) := by
  induction lanes generalizing s with
  | nil => rfl
  | cons lane lanes ih => rw [List.map_cons, execAll, exec_toInstr, List.foldl_cons, ← ih]

/-- A micro-operation reads the buffer, which none writes, and no register but its own: any two commute. -/
theorem State.updLane_comm (s : State) (l l' : UpdLane) : (s.updLane l).updLane l' = (s.updLane l').updLane l := by
  cases l <;> cases l' <;> rfl

theorem State.foldl_updLane_of_perm {lanes lanes' : List UpdLane} (h : lanes.Perm lanes') (s : State) :
    lanes.foldl State.updLane s = lanes'.foldl State.updLane s :=
  h.foldl_eq' (fun l _ l' _ t => t.updLane_comm l l') s

@[simp] theorem State.setReg_setReg (s : State) (r r' : Regs) : (s.setReg r).setReg r' = s.setReg r' := rfl

/-- In the order of the registers the eight are the simultaneous update: each finds its own register as it was at first. -/
theorem State.foldl_updLane_eq_update (s : State) :
    [UpdLane.vparam, .v, .iparam, .i, .pparam, .p, .pf, .pfdata].foldl State.updLane s = s.update := by
  simp [State.updLane, State.updVparam, State.updV, State.updIparam, State.updI, State.updPparam, State.updP, State.updPf,
    State.updPfdata, State.nextV, State.nextI, State.nextP, State.nextPfdata, State.update]

/-! ### The obligations -/

/-- Settles O32: each gated load is `upd_if` of its flag, its register and its field. -/
theorem gatedLoadsFollowTheirFlag : Obligations.GatedLoadsFollowTheirFlag := fun s =>
  ⟨⟨s.updV, rfl, fun h => updIf_field24_toNat h _ _ _, fun h => updIf_of_clear h _ _, rfl⟩,
    ⟨s.updI, rfl, fun h => updIf_field24_toNat h _ _ _, fun h => updIf_of_clear h _ _, rfl⟩,
    ⟨s.updP, rfl, fun h => updIf_field24_toNat h _ _ _, fun h => updIf_of_clear h _ _, rfl⟩⟩

/-- Settles O33: the counter becomes `nextPfdata`, and nothing else is written. -/
theorem overflowCountAddsOnePerFlaggedUpdate : Obligations.OverflowCountAddsOnePerFlaggedUpdate := fun s =>
  ⟨s.updPfdata, rfl, State.nextPfdata_of_set, State.nextPfdata_eq_succ, State.nextPfdata_of_clear, State.nextPfdata_lt, rfl⟩

/-- Settles O34: commuting micro-operations can be brought into the order of the registers. -/
theorem updateOrderDoesNotMatter : Obligations.UpdateOrderDoesNotMatter := by
  intro s lanes hperm
  rw [execAll_map_toInstr, State.foldl_updLane_of_perm hperm, State.foldl_updLane_eq_update]

/-- Settles O31: no load loses a bit of its field, and none writes anything but its register. -/
theorem ungatedLoadsAlwaysOverwrite : Obligations.UngatedLoadsAlwaysOverwrite := fun s =>
  ⟨⟨s.updVparam, rfl, field24_toNat _ _, rfl⟩, ⟨s.updIparam, rfl, field24_toNat _ _, rfl⟩,
    ⟨s.updPparam, rfl, field24_toNat _ _, rfl⟩, ⟨s.updPf, rfl, field16_toNat _ _, rfl⟩⟩

end Sys2Proof.Machine
end

section
/-! SUPPORT. The calculator of 43_calculator.md: the special operands of R161, the exact conversions of R162, the constants (R164 to R166),
the corner cases of the six reads (R170 to R175), and what every quantity is (R160, R180, R182). -/
namespace Sys2Proof

variable (fmt : FpFmt)

/-! ### Special operands -/

theorem Fp.isPositive_of_isPositiveFinite {x : Fp} (h : x.isPositiveFinite = true) : x.isPositive = true := by
  obtain ⟨s, e, rfl, hs⟩ := Fp.isPositiveFinite_cases h
  simpa [Fp.isPositive] using hs

theorem Fp.isFiniteNonneg_of_isPositiveFinite {x : Fp} (h : x.isPositiveFinite = true) : x.isFiniteNonneg = true := by
  obtain ⟨s, e, rfl, -⟩ := Fp.isPositiveFinite_cases h
  rfl

/-- Division by a divisor that is not 0 is one rounding of the exact quotient. -/
theorem fdiv_fin_fin {a b : Bool} {sa ea sb eb : Nat} (h : 0 < sb) :
    fdiv fmt (.fin a sa ea) (.fin b sb eb) = Fp.round fmt (a != b) (sa * 2 ^ ea * 2 ^ fmt.ulpScale) (sb * 2 ^ eb) :=
  if_neg h.ne'

theorem fdiv_zero_right {x : Fp} (h : x.isPositive = true) : fdiv fmt x (Fp.zero false) = .inf false := by
  obtain rfl | ⟨s, e, rfl, hs⟩ := Fp.isPositive_cases h
  · rfl
  · exact if_neg hs.ne'

theorem fdiv_zero_left {x : Fp} (h : x.isPositive = true) : fdiv fmt (Fp.zero false) x = Fp.zero false := by
  obtain rfl | ⟨s, e, rfl, hs⟩ := Fp.isPositive_cases h
  · rfl
  · rw [Fp.zero, fdiv_fin_fin fmt hs, Nat.zero_mul, Nat.zero_mul, Fp.round_zero]
    rfl

theorem fdiv_inf_left {x : Fp} (h : x.isFiniteNonneg = true) : fdiv fmt (.inf false) x = .inf false := by
  obtain ⟨s, e, rfl⟩ := Fp.isFiniteNonneg_cases h
  rfl

theorem fdiv_inf_right {x : Fp} (h : x.isFiniteNonneg = true) : fdiv fmt x (.inf false) = Fp.zero false := by
  obtain ⟨s, e, rfl⟩ := Fp.isFiniteNonneg_cases h
  rfl

theorem fmul_inf_left {x : Fp} (h : x.isPositive = true) : fmul fmt (.inf false) x = .inf false := by
  obtain rfl | ⟨s, e, rfl, hs⟩ := Fp.isPositive_cases h
  · rfl
  · exact if_neg hs.ne'

theorem fmul_zero_left {x : Fp} (h : x.isFiniteNonneg = true) : fmul fmt (Fp.zero false) x = Fp.zero false := by
  obtain ⟨s, e, rfl⟩ := Fp.isFiniteNonneg_cases h
  rw [Fp.zero, fmul, Nat.zero_mul, Nat.zero_mul, Fp.round_zero]
  rfl

theorem fmul_comm (x y : Fp) : fmul fmt x y = fmul fmt y x := by
  cases x with
  | nan => rw [fmul_nan_left, fmul_nan_right]
  | inf a =>
    cases y with
    | nan => rfl
    | inf b => exact congrArg Fp.inf (bne_comm ..)
    | fin b s e => simp only [fmul, bne_comm]
  | fin a s e =>
    cases y with
    | nan => rfl
    | inf b => simp only [fmul, bne_comm]
    | fin b t f => simp only [fmul, bne_comm, Nat.mul_comm]

/-! ### The size of a rounded number -/

/-- The unit in which a number is rounded does not exceed it, unless it is below the smallest positive number of the format. -/
theorem roundExp_unit_le {n d : Nat} (hd : 0 < d) (h : d ≤ n) : d * 2 ^ roundExp fmt n d ≤ n := by
  obtain he | hq := (roundExp_bound fmt n d).2
  · rwa [he, Nat.pow_zero, Nat.mul_one]
  · have hD : 0 < d * 2 ^ roundExp fmt n d := Nat.mul_pos hd (Nat.two_pow_pos _)
    exact (Nat.le_mul_of_pos_left _ (Nat.two_pow_pos _)).trans ((Nat.le_div_iff_mul_le hD).mp hq)

/-- A finite result has the value of the quotient rounded to an integer multiple of the unit. -/
theorem Fp.round_value {neg sign : Bool} {n d s x : Nat} (h : Fp.round fmt neg n d = .fin sign s x) :
    s * 2 ^ x * d = roundDiv n (d * 2 ^ roundExp fmt n d) * (d * 2 ^ roundExp fmt n d) := by
  obtain ⟨-, hv, -⟩ := Fp.pack_eq_fin h
  rw [hv]
  ring

/-- Rounding at most doubles or halves a number, unless it is below the smallest positive one. -/
theorem Fp.round_value_near {neg sign : Bool} {n d s x : Nat} (hd : 0 < d) (hn : d ≤ n)
    (h : Fp.round fmt neg n d = .fin sign s x) : n ≤ 2 * (s * 2 ^ x * d) ∧ s * 2 ^ x * d ≤ 2 * n := by
  have hunit := roundExp_unit_le fmt hd hn
  obtain ⟨hlow, hhigh⟩ := roundDiv_near n (Nat.mul_pos hd (Nat.two_pow_pos (roundExp fmt n d)))
  rw [Fp.round_value fmt h]
  omega

/-- A number that is a multiple of the unit is not changed by rounding. -/
theorem Fp.round_value_of_dvd {neg sign : Bool} {n d s x : Nat} (hd : 0 < d) (hn : d * 2 ^ roundExp fmt n d ∣ n)
    (h : Fp.round fmt neg n d = .fin sign s x) : s * 2 ^ x * d = n := by
  have hD : 0 < d * 2 ^ roundExp fmt n d := Nat.mul_pos hd (Nat.two_pow_pos _)
  rw [Fp.round_value fmt h]
  generalize d * 2 ^ roundExp fmt n d = D at hn hD
  obtain ⟨m, rfl⟩ := hn
  rw [Nat.mul_comm D m, roundDiv_exact m hD]

/-! ### Converted integers -/

theorem fcvt_isFiniteNonneg {n : Nat} (h : n < 2 ^ 64) : (fcvt fmt n).isFiniteNonneg = true := by
  obtain rfl | hn := Nat.eq_zero_or_pos n
  · rw [fcvt_zero]
    rfl
  · exact Fp.isFiniteNonneg_of_isPositiveFinite (fcvt_isPositiveFinite fmt hn h)

/-- An integer of at most `precision` bits is a multiple of the unit in which it is rounded. -/
theorem fcvt_value_of_lt {n s x : Nat} (hn : n < 2 ^ fmt.precision) (h : fcvt fmt n = .fin false s x) :
    s * 2 ^ x = n * 2 ^ fmt.ulpScale := by
  have hexp : roundExp fmt (n * 2 ^ fmt.ulpScale) 1 ≤ fmt.ulpScale := by
    rw [roundExp, Nat.div_one]
    obtain rfl | h0 := Nat.eq_zero_or_pos n
    · have := fmt.precision_pos
      rw [Nat.zero_mul, Nat.log2_zero]
      omega
    · have hlog : (n * 2 ^ fmt.ulpScale).log2 < fmt.precision + fmt.ulpScale := by
        rw [Nat.log2_lt (Nat.mul_pos h0 (Nat.two_pow_pos _)).ne', Nat.pow_add]
        exact Nat.mul_lt_mul_of_pos_right hn (Nat.two_pow_pos _)
      omega
  have hdvd : 1 * 2 ^ roundExp fmt (n * 2 ^ fmt.ulpScale) 1 ∣ n * 2 ^ fmt.ulpScale := by
    rw [Nat.one_mul]
    exact (Nat.pow_dvd_pow 2 hexp).mul_left n
  rw [← Fp.round_value_of_dvd fmt Nat.one_pos hdvd h, Nat.mul_one]

/-- Rounding at most doubles or halves a converted integer. -/
theorem fcvt_value_near {n s x : Nat} (hn : 0 < n) (h : fcvt fmt n = .fin false s x) :
    n * 2 ^ fmt.ulpScale ≤ 2 * (s * 2 ^ x) ∧ s * 2 ^ x ≤ 2 * (n * 2 ^ fmt.ulpScale) := by
  have hge : 1 ≤ n * 2 ^ fmt.ulpScale := Nat.mul_pos hn (Nat.two_pow_pos _)
  have := Fp.round_value_near fmt Nat.one_pos hge h
  rwa [Nat.mul_one] at this

/-- A quotient that is neither below the smallest positive number nor near the largest finite one rounds to a positive finite number. -/
theorem Fp.round_isPositiveFinite {n d : Nat} (hd : 0 < d) (h : d ≤ n) (h' : n < d * 2 ^ (fmt.precision + fmt.maxExp - 1)) :
    (Fp.round fmt false n d).isPositiveFinite = true := by
  have hpos := Fp.round_isPositive fmt hd h
  obtain ⟨s, e, hr⟩ := Fp.isFiniteNonneg_cases (Fp.round_isFiniteNonneg fmt h')
  rw [hr] at hpos ⊢
  exact hpos

/-- A converted positive integer below 2^64, in units of the smallest positive number of the format. -/
theorem fcvt_value_bounds {n s x : Nat} (hn : 0 < n) (hn' : n < 2 ^ 64) (h : fcvt fmt n = .fin false s x) :
    2 ^ fmt.ulpScale ≤ 2 * (s * 2 ^ x) ∧ s * 2 ^ x ≤ 2 ^ 65 * 2 ^ fmt.ulpScale := by
  obtain ⟨hlow, hhigh⟩ := fcvt_value_near fmt hn h
  have h1 : 1 * 2 ^ fmt.ulpScale ≤ n * 2 ^ fmt.ulpScale := Nat.mul_le_mul_right _ hn
  have h2 : n * 2 ^ fmt.ulpScale ≤ 2 ^ 64 * 2 ^ fmt.ulpScale := Nat.mul_le_mul_right _ hn'.le
  omega

/-- The quotient of two positive integers below 2^64, each converted, is in both formats far from 0 and from the largest finite number. -/
theorem fdiv_fcvt_isPositiveFinite {m n : Nat} (hm : 0 < m) (hm' : m < 2 ^ 64) (hn : 0 < n) (hn' : n < 2 ^ 64) :
    (fdiv fmt (fcvt fmt m) (fcvt fmt n)).isPositiveFinite = true := by
  obtain ⟨s, e, hs, -⟩ := Fp.isPositiveFinite_cases (fcvt_isPositiveFinite fmt hm hm')
  obtain ⟨t, f, ht, ht0⟩ := Fp.isPositiveFinite_cases (fcvt_isPositiveFinite fmt hn hn')
  obtain ⟨hs1, hs2⟩ := fcvt_value_bounds fmt hm hm' hs
  obtain ⟨ht1, ht2⟩ := fcvt_value_bounds fmt hn hn' ht
  have hU : 2 ^ 67 ≤ 2 ^ fmt.ulpScale := Nat.pow_le_pow_right (by decide) (by cases fmt <;> decide)
  have hW : 2 ^ 67 * 2 ^ fmt.ulpScale ≤ 2 ^ (fmt.precision + fmt.maxExp - 1) := by
    rw [← Nat.pow_add]
    exact Nat.pow_le_pow_right (by decide) (by cases fmt <;> decide)
  rw [hs, ht, fdiv_fin_fin fmt ht0]
  have hT : 0 < t * 2 ^ f := Nat.mul_pos ht0 (Nat.two_pow_pos f)
  generalize s * 2 ^ e = S at hs1 hs2 ⊢
  generalize t * 2 ^ f = T at hT ht1 ht2 ⊢
  generalize 2 ^ fmt.ulpScale = U at hs1 hs2 ht1 ht2 hU hW ⊢
  generalize hWdef : 2 ^ (fmt.precision + fmt.maxExp - 1) = W at hW
  apply Fp.round_isPositiveFinite fmt hT
  · have h1 : 2 ^ 67 * S ≤ U * S := Nat.mul_le_mul_right S hU
    rw [Nat.mul_comm S]
    omega
  · rw [hWdef]
    have h1 : S * U ≤ 2 ^ 65 * U * U := Nat.mul_le_mul_right U hs2
    have h2 : U * (2 ^ 67 * U) ≤ 2 * T * W := Nat.mul_le_mul ht1 hW
    have h3 : 0 < U * U := by positivity
    linarith

/-! ### The coefficients and the constant -/

/-- A legal parameter is its exact value rounded once (rule R164). -/
theorem Ohms.toFp_of_positive {r : Ohms} (h : r.positive = true) :
    0 < r.den ∧ r.toFp fmt = Fp.round fmt false (r.num.natAbs * 2 ^ fmt.ulpScale) r.den := by
  simp only [Ohms.positive, Bool.and_eq_true, decide_eq_true_eq] at h
  obtain ⟨hnum, hden⟩ := h
  rw [Ohms.toFp, if_neg hden.ne', decide_eq_false (by omega)]
  exact ⟨hden, rfl⟩

theorem Config.legal_iff (c : Config) :
    c.legal = true ↔ c.voltageR1.positive = true ∧ c.voltageR2.positive = true ∧ c.currentShuntR.positive = true ∧ 1 ≤ c.pfdataW := by
  simp [Config.legal, and_assoc]

/-- 10^10 and 3600 are exact in both formats, and their product and `K` are one number rounded once (rule R166). -/
theorem fcvt_36e12_eq_fmul : fcvt fmt 36000000000000 = fmul fmt (fcvt fmt 10000000000) (fcvt fmt 3600) := by
  cases fmt <;> decide +kernel

/-! ### The interchange encoding -/

/-- The canonical pairs, with one power of two in both bounds of the significand. -/
theorem Fp.canonical_fin_iff {neg : Bool} {sig exp : Nat} :
    (Fp.fin neg sig exp).canonical fmt = true ↔
      sig < 2 * 2 ^ (fmt.precision - 1) ∧ exp ≤ fmt.maxExp ∧ (exp = 0 ∨ 2 ^ (fmt.precision - 1) ≤ sig) := by
  simp [Fp.canonical, fmt.two_pow_precision, and_assoc]

/-- The encoding counts the numbers of the format upwards from 0. -/
theorem Fp.magnitudeBits_of_canonical {neg : Bool} {sig exp : Nat} (h : (Fp.fin neg sig exp).canonical fmt = true) :
    Fp.magnitudeBits fmt sig exp = exp * 2 ^ (fmt.precision - 1) + sig := by
  obtain ⟨-, -, rfl | hnormal⟩ := (Fp.canonical_fin_iff fmt).mp h
  · simp [Fp.magnitudeBits]
  · exact if_neg hnormal.not_gt

/-- The bits beside the sign, for every value but NaN. -/
def Fp.bitsWithoutSign : Fp → Nat
  | .nan => 0
  | .inf _ => Fp.infinityBits fmt
  | .fin _ sig exp => Fp.magnitudeBits fmt sig exp

theorem Fp.encoding_eq {x : Fp} (h : x ≠ .nan) :
    Fp.encoding fmt x =
      some (BitVec.ofNat fmt.width ((if x.isNegative then 2 ^ (fmt.width - 1) else 0) + x.bitsWithoutSign fmt)) := by
  cases x with
  | nan => exact absurd rfl h
  | inf neg => rfl
  | fin neg sig exp => rfl

theorem Fp.magnitudeBits_lt_infinityBits {neg : Bool} {sig exp : Nat} (h : (Fp.fin neg sig exp).canonical fmt = true) :
    Fp.magnitudeBits fmt sig exp < Fp.infinityBits fmt := by
  obtain ⟨hsig, hexp, -⟩ := (Fp.canonical_fin_iff fmt).mp h
  have hprod : exp * 2 ^ (fmt.precision - 1) ≤ fmt.maxExp * 2 ^ (fmt.precision - 1) := Nat.mul_le_mul_right _ hexp
  rw [Fp.magnitudeBits_of_canonical fmt h, Fp.infinityBits, Nat.add_mul]
  omega

/-- The sign bit is above all others. -/
theorem Fp.bitsWithoutSign_lt {x : Fp} (h : x.canonical fmt = true) : x.bitsWithoutSign fmt < 2 ^ (fmt.width - 1) := by
  have hinf : Fp.infinityBits fmt < 2 ^ (fmt.width - 1) := by cases fmt <;> decide
  cases x with
  | nan => exact Nat.two_pow_pos _
  | inf neg => exact hinf
  | fin neg sig exp => exact (Fp.magnitudeBits_lt_infinityBits fmt h).trans hinf

/-- Consecutive binades do not overlap: of two canonical pairs with different exponents the higher one has the greater bits. -/
theorem Fp.magnitudeBits_lt_of_exp_lt {a b : Bool} {s e t f : Nat} (hs : (Fp.fin a s e).canonical fmt = true)
    (ht : (Fp.fin b t f).canonical fmt = true) (hlt : e < f) : Fp.magnitudeBits fmt s e < Fp.magnitudeBits fmt t f := by
  obtain ⟨hsig, -, -⟩ := (Fp.canonical_fin_iff fmt).mp hs
  obtain ⟨-, -, hf⟩ := (Fp.canonical_fin_iff fmt).mp ht
  have hnormal : 2 ^ (fmt.precision - 1) ≤ t := hf.resolve_left (by omega)
  have hprod : (e + 1) * 2 ^ (fmt.precision - 1) ≤ f * 2 ^ (fmt.precision - 1) := Nat.mul_le_mul_right _ hlt
  rw [Nat.succ_mul] at hprod
  rw [Fp.magnitudeBits_of_canonical fmt hs, Fp.magnitudeBits_of_canonical fmt ht]
  omega

theorem Fp.magnitudeBits_injective {a b : Bool} {s e t f : Nat} (hs : (Fp.fin a s e).canonical fmt = true)
    (ht : (Fp.fin b t f).canonical fmt = true) (h : Fp.magnitudeBits fmt s e = Fp.magnitudeBits fmt t f) : s = t ∧ e = f := by
  obtain hlt | rfl | hgt := Nat.lt_trichotomy e f
  · exact absurd h (Fp.magnitudeBits_lt_of_exp_lt fmt hs ht hlt).ne
  · rw [Fp.magnitudeBits_of_canonical fmt hs, Fp.magnitudeBits_of_canonical fmt ht] at h
    exact ⟨Nat.add_left_cancel h, rfl⟩
  · exact absurd h (Fp.magnitudeBits_lt_of_exp_lt fmt ht hs hgt).ne'

theorem Fp.eq_of_bitsWithoutSign {x y : Fp} (hx : x.canonical fmt = true) (hy : y.canonical fmt = true) (hxn : x ≠ .nan)
    (hyn : y ≠ .nan) (hsign : x.isNegative = y.isNegative) (h : x.bitsWithoutSign fmt = y.bitsWithoutSign fmt) : x = y := by
  cases x with
  | nan => exact absurd rfl hxn
  | inf a =>
    cases y with
    | nan => exact absurd rfl hyn
    | inf b => exact congrArg Fp.inf hsign
    | fin b t f => exact absurd h (Fp.magnitudeBits_lt_infinityBits fmt hy).ne'
  | fin a s e =>
    cases y with
    | nan => exact absurd rfl hyn
    | inf b => exact absurd h (Fp.magnitudeBits_lt_infinityBits fmt hx).ne
    | fin b t f =>
      obtain ⟨rfl, rfl⟩ := Fp.magnitudeBits_injective fmt hx hy h
      exact congrArg (Fp.fin · s e) hsign

/-- A sign bit above the other bits can be read off, and so can they. -/
theorem sign_and_bits_of_add_eq {a b : Bool} {m n k : Nat} (hm : m < k) (hn : n < k)
    (h : (if a then k else 0) + m = (if b then k else 0) + n) : a = b ∧ m = n := by
  obtain rfl | rfl := Bool.eq_or_eq_not a b
  · exact ⟨rfl, Nat.add_left_cancel h⟩
  · cases b <;> simp at h <;> omega

theorem Fp.encoding_injective {x y : Fp} (hx : x.canonical fmt = true) (hy : y.canonical fmt = true)
    (h : Fp.encoding fmt x = Fp.encoding fmt y) : x = y := by
  by_cases hxn : x = .nan
  · by_cases hyn : y = .nan
    · rw [hxn, hyn]
    · rw [hxn, Fp.encoding_eq fmt hyn] at h
      cases h
  · by_cases hyn : y = .nan
    · rw [hyn, Fp.encoding_eq fmt hxn] at h
      cases h
    · have hxlt := Fp.bitsWithoutSign_lt fmt hx
      have hylt := Fp.bitsWithoutSign_lt fmt hy
      have hw : 2 ^ fmt.width = 2 ^ (fmt.width - 1) + 2 ^ (fmt.width - 1) := by cases fmt <;> decide
      rw [Fp.encoding_eq fmt hxn, Fp.encoding_eq fmt hyn, Option.some_inj, ← BitVec.toNat_inj, BitVec.toNat_ofNat,
        BitVec.toNat_ofNat, Nat.mod_eq_of_lt (by split_ifs <;> omega), Nat.mod_eq_of_lt (by split_ifs <;> omega)] at h
      obtain ⟨hsign, hbits⟩ := sign_and_bits_of_add_eq hxlt hylt h
      exact Fp.eq_of_bitsWithoutSign fmt hx hy hxn hyn hsign hbits

/-! ### The obligations of the arithmetic -/

/-- Settles O49: every row of the table is a rule of its own above. -/
theorem specialOperandsFollowTheTable : Obligations.SpecialOperandsFollowTheTable := fun fmt x =>
  ⟨rfl, fun h => fdiv_zero_right fmt (Fp.isPositive_of_isPositiveFinite h),
    fun h => fdiv_zero_left fmt (Fp.isPositive_of_isPositiveFinite h), fdiv_inf_left fmt, fdiv_inf_right fmt, rfl, rfl, rfl,
    fmul_inf_left fmt, fmul_zero_left fmt, fdiv_nan_right fmt x, fdiv_nan_left fmt x, fmul_nan_right fmt x, fmul_nan_left fmt x⟩

/-- Settles O50: each of the three primitives is one rounding of the exact number. -/
theorem quotientsAndProductsRoundToNearestEven : Obligations.QuotientsAndProductsRoundToNearestEven := by
  refine ⟨fun fmt a b sa ea sb eb => ⟨fun hb => ?_, Fp.round_isRounded fmt _ _ (Nat.two_pow_pos _)⟩,
    fun fmt n => Fp.round_isRounded fmt _ _ Nat.one_pos⟩
  rw [fdiv_fin_fin fmt hb]
  exact Fp.round_isRounded fmt _ _ (Nat.mul_pos hb (Nat.two_pow_pos _))

/-- Settles O51: 24 bits fit in the precision of both formats. -/
theorem conversionOfRegistersIsExact : Obligations.ConversionOfRegistersIsExact := by
  intro fmt n hn
  obtain ⟨sig, exp, h⟩ := Fp.isFiniteNonneg_cases (fcvt_isFiniteNonneg fmt (n := n) (by omega))
  have hp : 2 ^ 24 ≤ 2 ^ fmt.precision := Nat.pow_le_pow_right (by decide) (by cases fmt <;> decide)
  exact ⟨sig, exp, h, fcvt_value_of_lt fmt (hn.trans_le hp) h⟩

end Sys2Proof

namespace Sys2Proof.Machine

/-! ### The quotient of two registers -/

section Ratio

variable (c : Config) {n d : Word24} {k : Fp}

/-- A register that is not 0 is a positive number. -/
theorem toNat_pos_of_ne_zero {w : Nat} {x : BitVec w} (h : x ≠ 0) : 0 < x.toNat :=
  Nat.pos_of_ne_zero fun h0 => h (BitVec.eq_of_toNat_eq h0)

theorem fcvt_register_zero : fcvt c.fmt (0 : Word24).toNat = Fp.zero false := fcvt_zero c.fmt

theorem fcvt_register_isPositive (h : n ≠ 0) : (fcvt c.fmt n.toNat).isPositive = true :=
  fcvt_isPositive c.fmt (toNat_pos_of_ne_zero h)

theorem regRatio_zero_zero : regRatio c 0 0 = .nan := by
  rw [regRatio, fcvt_register_zero]
  exact fdiv_zero_zero c.fmt false false 0 0

theorem regRatio_zero_right (h : n ≠ 0) : regRatio c n 0 = .inf false := by
  rw [regRatio, fcvt_register_zero]
  exact fdiv_zero_right c.fmt (fcvt_register_isPositive c h)

theorem regRatio_zero_left (h : d ≠ 0) : regRatio c 0 d = Fp.zero false := by
  rw [regRatio, fcvt_register_zero]
  exact fdiv_zero_left c.fmt (fcvt_register_isPositive c h)

/-! The corner cases of rules R170 to R172: such a quotient times a coefficient `k`. -/

theorem fmul_regRatio_eq_nan (hd : d = 0) (hn : n = 0) : fmul c.fmt (regRatio c n d) k = .nan := by
  rw [hd, hn, regRatio_zero_zero, fmul_nan_left]

theorem fmul_regRatio_eq_inf (hk : k.isPositiveFinite = true) (hd : d = 0) (hn : n ≠ 0) :
    fmul c.fmt (regRatio c n d) k = .inf false := by
  rw [hd, regRatio_zero_right c hn]
  exact fmul_inf_left c.fmt (Fp.isPositive_of_isPositiveFinite hk)

theorem fmul_regRatio_eq_zero (hk : k.isPositiveFinite = true) (hd : d ≠ 0) (hn : n = 0) :
    fmul c.fmt (regRatio c n d) k = Fp.zero false := by
  rw [hn, regRatio_zero_left c hd]
  exact fmul_zero_left c.fmt (Fp.isFiniteNonneg_of_isPositiveFinite hk)

end Ratio

/-! ### The active power -/

section Quantities

variable (c : Config) (r : Regs)

theorem activePower_eq_nan (hp : r.p = 0) (hpp : r.pparam = 0) : activePower c r = .nan := by
  rw [activePower, fmul_regRatio_eq_nan c hp hpp, fmul_nan_left]

theorem activePower_eq_inf (hv : (vc c).isPositiveFinite = true) (hc : (cc c).isPositiveFinite = true) (hp : r.p = 0)
    (hpp : r.pparam ≠ 0) : activePower c r = .inf false := by
  rw [activePower, fmul_regRatio_eq_inf c hv hp hpp]
  exact fmul_inf_left c.fmt (Fp.isPositive_of_isPositiveFinite hc)

theorem activePower_eq_zero (hv : (vc c).isPositiveFinite = true) (hc : (cc c).isPositiveFinite = true) (hp : r.p ≠ 0)
    (hpp : r.pparam = 0) : activePower c r = Fp.zero false := by
  rw [activePower, fmul_regRatio_eq_zero c hv hp hpp]
  exact fmul_zero_left c.fmt (Fp.isFiniteNonneg_of_isPositiveFinite hc)

/-! ### The accumulated energy (rule R175) -/

/-- `K` over a parameter register of 0. -/
theorem fdiv_constK_zero : fdiv c.fmt (constK c) (fcvt c.fmt (0 : Word24).toNat) = .inf false := by
  rw [fcvt_register_zero]
  exact fdiv_zero_right c.fmt (fcvt_isPositive c.fmt (by decide))

/-- `K` over any other parameter neither overflows nor underflows. -/
theorem fdiv_constK_isPositiveFinite {n : Word24} (h : n ≠ 0) :
    (fdiv c.fmt (constK c) (fcvt c.fmt n.toNat)).isPositiveFinite = true :=
  fdiv_fcvt_isPositiveFinite c.fmt (by decide) (by decide) (toNat_pos_of_ne_zero h) (n.isLt.trans (by decide))

variable {c r}

theorem pulseCount_of_nan (h : apparentPower c r = .nan) : pulseCount c r = .nan := by
  rw [pulseCount, h, fdiv_nan_right]

theorem pulseCount_of_pparam_zero_of_inf (hp : r.pparam = 0) (h : apparentPower c r = .inf false) :
    pulseCount c r = .nan := by
  rw [pulseCount, h, hp, fdiv_constK_zero]
  rfl

theorem pulseCount_of_pparam_zero (hp : r.pparam = 0) (h : (apparentPower c r).isFiniteNonneg = true) :
    pulseCount c r = .inf false := by
  rw [pulseCount, hp, fdiv_constK_zero]
  exact fdiv_inf_left c.fmt h

theorem pulseCount_of_zero (hp : r.pparam ≠ 0) (h : apparentPower c r = Fp.zero false) : pulseCount c r = .inf false := by
  rw [pulseCount, h]
  exact fdiv_zero_right c.fmt (Fp.isPositive_of_isPositiveFinite (fdiv_constK_isPositiveFinite c hp))

theorem pulseCount_of_inf (hp : r.pparam ≠ 0) (h : apparentPower c r = .inf false) : pulseCount c r = Fp.zero false := by
  rw [pulseCount, h]
  exact fdiv_inf_right c.fmt (Fp.isFiniteNonneg_of_isPositiveFinite (fdiv_constK_isPositiveFinite c hp))

theorem electricalQuantity_of_nan (h : pulseCount c r = .nan) : electricalQuantity c r = .nan := by
  rw [electricalQuantity, h, fdiv_nan_right]

theorem electricalQuantity_of_inf (hN : (fcvt c.fmt (energyCount r)).isFiniteNonneg = true)
    (h : pulseCount c r = .inf false) : electricalQuantity c r = Fp.zero false := by
  rw [electricalQuantity, h]
  exact fdiv_inf_right c.fmt hN

theorem electricalQuantity_of_zero (hN : energyCount r ≠ 0) (h : pulseCount c r = Fp.zero false) :
    electricalQuantity c r = .inf false := by
  rw [electricalQuantity, h]
  exact fdiv_zero_right c.fmt (fcvt_isPositive c.fmt (Nat.pos_of_ne_zero hN))

theorem electricalQuantity_of_zero_of_zero (hN : energyCount r = 0) (h : pulseCount c r = Fp.zero false) :
    electricalQuantity c r = .nan := by
  rw [electricalQuantity, h, hN, fcvt_zero]
  rfl

/-! ### No quantity is negative -/

theorem vc_isNegative (h : c.legal = true) : (vc c).isNegative = false := by
  obtain ⟨h1, h2, -, -⟩ := c.legal_iff.mp h
  exact fdiv_isNegative _ (Ohms.toFp_isNegative _ h1) (fmul_isNegative _ (fcvt_isNegative _ _) (Ohms.toFp_isNegative _ h2))

theorem cc_isNegative (h : c.legal = true) : (cc c).isNegative = false := by
  obtain ⟨-, -, h3, -⟩ := c.legal_iff.mp h
  exact fdiv_isNegative _ (fcvt_isNegative _ _) (fmul_isNegative _ (fcvt_isNegative _ _) (Ohms.toFp_isNegative _ h3))

theorem regRatio_isNegative (c : Config) (n d : Word24) : (regRatio c n d).isNegative = false :=
  fdiv_isNegative _ (fcvt_isNegative _ _) (fcvt_isNegative _ _)

theorem effectiveVoltage_isNegative (h : c.legal = true) : (effectiveVoltage c r).isNegative = false :=
  fmul_isNegative _ (regRatio_isNegative c _ _) (vc_isNegative h)

theorem effectiveCurrent_isNegative (h : c.legal = true) : (effectiveCurrent c r).isNegative = false :=
  fmul_isNegative _ (regRatio_isNegative c _ _) (cc_isNegative h)

theorem activePower_isNegative (h : c.legal = true) : (activePower c r).isNegative = false :=
  fmul_isNegative _ (fmul_isNegative _ (regRatio_isNegative c _ _) (vc_isNegative h)) (cc_isNegative h)

theorem apparentPower_isNegative (h : c.legal = true) : (apparentPower c r).isNegative = false :=
  fmul_isNegative _ (effectiveVoltage_isNegative h) (effectiveCurrent_isNegative h)

theorem pulseCount_isNegative (h : c.legal = true) : (pulseCount c r).isNegative = false :=
  fdiv_isNegative _ (fdiv_isNegative _ (fcvt_isNegative _ _) (fcvt_isNegative _ _)) (apparentPower_isNegative h)

/-! ### The reset registers (rule R180) -/

theorem effectiveVoltage_zero : effectiveVoltage c Regs.zero = .nan := fmul_regRatio_eq_nan c rfl rfl

theorem effectiveCurrent_zero : effectiveCurrent c Regs.zero = .nan := fmul_regRatio_eq_nan c rfl rfl

theorem activePower_zero : activePower c Regs.zero = .nan := activePower_eq_nan c Regs.zero rfl rfl

theorem apparentPower_zero : apparentPower c Regs.zero = .nan := by
  rw [apparentPower, effectiveVoltage_zero, fmul_nan_left]

theorem powerFactor_zero : powerFactor c Regs.zero = .nan := by
  rw [powerFactor, activePower_zero, fdiv_nan_left]

theorem pulseCount_zero : pulseCount c Regs.zero = .nan := pulseCount_of_nan apparentPower_zero

theorem electricalQuantity_zero : electricalQuantity c Regs.zero = .nan := electricalQuantity_of_nan pulseCount_zero

/-- The ports after a reset; the cleared buffer has the sum 0 and the checksum byte 0. -/
theorem State.clear_outputs (s : State) :
    s.clear.outputs =
      { frameComplete := false, checksumValid := true, vEff := .nan, iEff := .nan, pActive := .nan, pApparent := .nan,
        powerFactor := .nan, energyKwh := .nan } := by
  simp only [State.outputs, State.clear_reg, effectiveVoltage_zero, effectiveCurrent_zero, activePower_zero, apparentPower_zero,
    powerFactor_zero, electricalQuantity_zero]
  rfl

end Quantities

/-! ### The obligations of the calculator -/

/-- Settles O42, with the corner cases of a quotient of registers times a coefficient. -/
theorem getVReturnsEffectiveVoltage : Obligations.GetVReturnsEffectiveVoltage := fun s =>
  ⟨_, rfl, rfl, fmul_regRatio_eq_nan s.cfg, fmul_regRatio_eq_inf s.cfg, fmul_regRatio_eq_zero s.cfg⟩

/-- Settles O43, like O42. -/
theorem getIReturnsEffectiveCurrent : Obligations.GetIReturnsEffectiveCurrent := fun s =>
  ⟨_, rfl, rfl, fmul_regRatio_eq_nan s.cfg, fmul_regRatio_eq_inf s.cfg, fmul_regRatio_eq_zero s.cfg⟩

/-- Settles O44: the second coefficient leaves NaN, +Inf and +0 as they are. -/
theorem getPReturnsActivePower : Obligations.GetPReturnsActivePower := by
  refine ⟨fun s => ⟨activePower s.cfg s.reg, rfl, rfl, activePower_eq_nan s.cfg s.reg, fun hv hc =>
    ⟨activePower_eq_inf s.cfg s.reg hv hc, activePower_eq_zero s.cfg s.reg hv hc⟩⟩, ?_⟩
  intro s s' hcfg hpparam hp
  rw [activePower, activePower, hcfg, hpparam, hp]

/-- Settles O45, from the special operands of `fmul` and its symmetry. -/
theorem getSReturnsApparentPower : Obligations.GetSReturnsApparentPower := by
  intro s
  refine ⟨effectiveVoltage s.cfg s.reg, effectiveCurrent s.cfg s.reg, apparentPower s.cfg s.reg, rfl, rfl, rfl, rfl, ?_⟩
  rw [apparentPower]
  generalize effectiveVoltage s.cfg s.reg = x, effectiveCurrent s.cfg s.reg = y
  refine ⟨?_, ?_, ?_, ?_⟩
  · rintro (rfl | rfl)
    · exact fmul_nan_left _ y
    · exact fmul_nan_right _ x
  · rintro (⟨rfl, rfl⟩ | ⟨rfl, rfl⟩) <;> rfl
  · rintro (⟨rfl, hy⟩ | ⟨hx, rfl⟩)
    · exact fmul_inf_left _ hy
    · rw [fmul_comm, fmul_inf_left _ hx]
  · rintro (⟨rfl, hy⟩ | ⟨hx, rfl⟩)
    · exact fmul_zero_left _ hy
    · rw [fmul_comm, fmul_zero_left _ hx]

/-- Settles O46, from the special operands of `fdiv`. -/
theorem getPfReturnsPowerFactor : Obligations.GetPfReturnsPowerFactor := by
  intro s
  refine ⟨activePower s.cfg s.reg, apparentPower s.cfg s.reg, powerFactor s.cfg s.reg, rfl, rfl, rfl, rfl, ?_⟩
  rw [powerFactor]
  generalize activePower s.cfg s.reg = x, apparentPower s.cfg s.reg = y
  refine ⟨?_, ?_, ?_, ?_⟩
  · rintro (rfl | rfl)
    · exact fdiv_nan_left _ y
    · exact fdiv_nan_right _ x
  · rintro (⟨rfl, rfl⟩ | ⟨rfl, rfl⟩) <;> rfl
  · rintro rfl hx
    exact fdiv_zero_right _ hx
  · rintro rfl hx
    exact fdiv_inf_right _ hx

/-- Settles O47: each row of the rule's table is the pulse count of the row, and then the energy of that pulse count. -/
theorem getEReturnsAccumulatedEnergy : Obligations.GetEReturnsAccumulatedEnergy := by
  intro s
  refine ⟨apparentPower s.cfg s.reg, pulseCount s.cfg s.reg, electricalQuantity s.cfg s.reg, rfl, rfl, rfl, rfl,
    fun hy => ?_, fun hp hy => ?_, fun hN => ⟨fun hp hy => ?_, fun hp hy => ?_, fun hp hy => ?_⟩⟩
  · have hpulse := pulseCount_of_nan hy
    exact ⟨hpulse, electricalQuantity_of_nan hpulse⟩
  · have hpulse := pulseCount_of_pparam_zero_of_inf hp hy
    exact ⟨hpulse, electricalQuantity_of_nan hpulse⟩
  · have hpulse := pulseCount_of_zero hp hy
    exact ⟨hpulse, electricalQuantity_of_inf hN hpulse⟩
  · have hpulse := pulseCount_of_inf hp hy
    exact ⟨hpulse, fun hN0 => electricalQuantity_of_zero hN0 hpulse, fun hN0 => electricalQuantity_of_zero_of_zero hN0 hpulse⟩
  · have hpulse := pulseCount_of_pparam_zero hp hy
    exact ⟨hpulse, electricalQuantity_of_inf hN hpulse⟩

/-- Settles O52: a legal parameter is rounded once, and the encodings of the default parameters are evaluated. -/
theorem constantsHaveTheSpecsEncodings : Obligations.ConstantsHaveTheSpecsEncodings := by
  refine ⟨fun c h => ⟨fun r hr => ?_, rfl, rfl, Fp.round_isRounded c.fmt _ _ Nat.one_pos, fcvt_36e12_eq_fmul c.fmt⟩, ?_⟩
  · obtain ⟨h1, h2, h3, -⟩ := c.legal_iff.mp h
    have hpos : r.positive = true := by
      simp only [List.mem_cons, List.not_mem_nil, or_false] at hr
      obtain rfl | rfl | rfl := hr
      · exact h1
      · exact h2
      · exact h3
    obtain ⟨hden, hround⟩ := Ohms.toFp_of_positive c.fmt hpos
    rw [hround]
    exact Fp.round_isRounded c.fmt _ _ hden
  · decide +kernel

/-- Settles O53: no operand of the formulas is negative, and neither primitive makes a negative value of such operands. -/
theorem noQuantityIsNegative : Obligations.NoQuantityIsNegative := fun _ _ h =>
  ⟨effectiveVoltage_isNegative h, effectiveCurrent_isNegative h, activePower_isNegative h, apparentPower_isNegative h,
    fdiv_isNegative _ (activePower_isNegative h) (apparentPower_isNegative h),
    fdiv_isNegative _ (fcvt_isNegative _ _) (pulseCount_isNegative h)⟩

/-- Settles O54: every quantity is a quotient or a product, and these are canonical. -/
theorem quantitiesAreRepresentable : Obligations.QuantitiesAreRepresentable :=
  ⟨fun _ _ => ⟨fmul_canonical _ _ _, fmul_canonical _ _ _, fmul_canonical _ _ _, fmul_canonical _ _ _, fdiv_canonical _ _ _,
    fdiv_canonical _ _ _⟩, fun fmt _ _ => Fp.encoding_injective fmt⟩

/-- Settles O3: `RESET` answers `clear`. -/
theorem afterResetEveryQuantityIsNaN : Obligations.AfterResetEveryQuantityIsNaN := fun s =>
  ⟨s.clear, rfl, pulseCount_zero, s.clear_outputs⟩

end Sys2Proof.Machine
end

section
/-! SUPPORT. The failures of 60_exceptions.md: resynchronisation leaves a state that the bytes it follows leave alone (R209), and a whole
frame with another checksum byte than R84 computes changes no register (R203). -/
namespace Sys2Proof.Machine

variable (s : State)

/-! ### Runs of bytes that change nothing -/

theorem State.pushAll_eq_self {bs : List Byte} (h : ∀ b ∈ bs, s.push b = s) : s.pushAll bs = s := by
  induction bs with
  | nil => rfl
  | cons b bs ih =>
    obtain ⟨hb, hbs⟩ := List.forall_mem_cons.mp h
    rw [State.pushAll_cons, hb, ih hbs]

/-- In Searching every byte but 0x55 is discarded (rule R105). -/
theorem State.push_of_searching (hst : s.st = .searching) {b : Byte} (hb : b ≠ stateMarker) : s.push b = s.pushDrop :=
  s.push_of_drop (s.pushCase_eq_drop.mpr ⟨hb, by simp [hst], by simp [hst]⟩)

@[simp] theorem State.pushDrop_pushDrop : s.pushDrop.pushDrop = s.pushDrop := rfl

/-- The second marker is written over the first. -/
@[simp] theorem State.pushSync_pushSync : s.pushSync.pushSync = s.pushSync := by
  have hbuf : s.pushSync.pushSync.buf = s.pushSync.buf := s.buf.write_write 0 stateMarker stateMarker
  exact congrArg (fun m => { s.pushSync with buf := m }) hbuf

theorem State.pushDrop_pushAll {bs : List Byte} (h : ∀ b ∈ bs, b ≠ stateMarker) : s.pushDrop.pushAll bs = s.pushDrop :=
  s.pushDrop.pushAll_eq_self fun b hb => by
    rw [s.pushDrop.push_of_searching rfl (h b hb), State.pushDrop_pushDrop]

theorem State.pushSync_pushAll_replicate (n : Nat) : s.pushSync.pushAll (List.replicate n stateMarker) = s.pushSync :=
  s.pushSync.pushAll_eq_self fun b hb => by
    rw [List.eq_of_mem_replicate hb, State.push_of_sync, State.pushSync_pushSync]

/-! ### The obligations -/

/-- Settles O12: the first byte of either run leaves a state that the rest of the run leaves alone. -/
theorem resynchronisationsNestTrivially : Obligations.ResynchronisationsNestTrivially := by
  refine fun s n bs => ⟨fun hst hbs hne => ?_, ?_⟩
  · cases bs with
    | nil => exact absurd rfl hne
    | cons b bs =>
      obtain ⟨hb, hrest⟩ := List.forall_mem_cons.mp hbs
      rw [State.pushAll_cons, s.push_of_searching hst hb, s.pushDrop_pushAll hrest, s.push_of_searching hst (by decide)]
  · have hpush : s.push 0x55 = s.pushSync := s.push_of_sync
    rw [List.replicate_succ, State.pushAll_cons, hpush]
    exact s.pushSync_pushAll_replicate n

/-- Settles O16: the frame ends with `PUSH.LAST`, and its checksum byte is not the sum that the verdict and the update ask for. -/
theorem checksumFailureCompletesWithoutUpdate : Obligations.ChecksumFailureCompletesWithoutUpdate := by
  intro f k s h hk
  have hlast := s.pushAll_bytes_of_wellFormed h
  have hreg : (s.pushAll (f.bytes k)).reg = s.reg := (s.pushAll_bytes_reg_of_wellFormed h).resolve_right hk
  have hinvalid : (s.pushAll (f.bytes k)).checksumValid = false := by
    rw [s.pushAll_bytes_checksumValid h, decide_eq_false hk.symm]
  exact ⟨s.pushAll (f.bytes k), rfl, by rw [hlast, State.pushLast_fc], hinvalid, by rw [hlast, State.pushLast_st], hreg,
    s.sameQuantities_of_reg hreg (s.pushAll_cfg _), s.pushAll_cfg _, s.pushAll_pending _, s.pushAll_sampled _⟩

end Sys2Proof.Machine
end

section
/-! SUPPORT. What U4 and 95_test_vectors.md ask of a model: the refusal of a block with illegal parameters, and the readings of the
worked example X1. -/
namespace Sys2Proof.Machine

variable (s : State)

/-! ### A block with illegal parameters -/

theorem exec_construct_of_illegal (h : s.cfg.legal = false) : exec .construct s = .refused .illegalParameters :=
  if_neg (Bool.eq_false_iff.mp h)

theorem step_of_illegal (h : s.cfg.legal = false) : step s = .refused .illegalParameters :=
  if_neg (Bool.eq_false_iff.mp h)

/-! ### The worked example -/

/-- A block with the default parameters, in the format `fmt`, that holds the registers of the example frame (X1, rule R85). -/
def exampleBlock (fmt : FpFmt) : State :=
  (State.resetOf (Config.withFormat fmt)).setReg
    { vparam := 191400, v := 3500, iparam := 16100, i := 56107, pparam := 5313000, p := 1686825, pf := 237, pfdata := 0 }

/-! ### The obligations -/

/-- Settles O2: the legality of the parameters is the guard of `CONSTRUCT` and that of the step. -/
theorem illegalParametersAreRefused : Obligations.IllegalParametersAreRefused :=
  fun s h => ⟨exec_construct_of_illegal s h, step_of_illegal s h⟩

/-- Settles O56: the quantities are those of `exampleBlock`, whatever the rest of the state is, and these are evaluated. -/
theorem exampleReadingsHaveTheGivenEncodings : Obligations.ExampleReadingsHaveTheGivenEncodings := by
  refine fun s hreg => ⟨fun hcfg => ?_, fun hcfg => ?_⟩
  · obtain ⟨hV, hI, hP, hS, hPf, hE⟩ : (exampleBlock .binary64).SameQuantities s := State.sameQuantities_of_reg hreg hcfg
    rw [hV, hI, hP, hS, hPf, hE]
    decide +kernel
  · obtain ⟨hV, hI, hP, hS, hPf, hE⟩ : (exampleBlock .binary32).SameQuantities s := State.sameQuantities_of_reg hreg hcfg
    rw [hV, hI, hP, hS, hPf, hE]
    decide +kernel

end Sys2Proof.Machine
end
